-- ==== Sys2Proof/Word.lean ====
section
/-! DEFINITION. The plain data every other file is written over: the byte, the 16-bit reading, and the
six-byte frame of the bus (spec/00_scope.md R4, R28). -/

namespace Sys2Proof

/-- `u8` of R28: an unsigned byte, bit 0 the least significant. -/
abbrev Byte := BitVec 8

/-- `u16` of R28. -/
abbrev Half := BitVec 16

/-- `Frame` of R28: exactly `N` = 6 bytes, byte 0 the first on the wire.
A record of six bytes, "not a growable collection" (R18). -/
structure Frame where
  b0 : Byte
  b1 : Byte
  b2 : Byte
  b3 : Byte
  b4 : Byte
  b5 : Byte
deriving DecidableEq, Repr, Inhabited

end Sys2Proof
end

