-- ==== Sys2Proof/Config.lean ====
section
/-! DEFINITION. What is hardwired in the codec (spec/00_scope.md R4 to R8, spec/10_state.md R24), the
closed set of commands, and the two things no rule gives a value: the bus address (R9) and what RXBUF
holds after a failed read (R18). -/

namespace Sys2Proof

/-- `CmdIdx` (R28, R70): the closed set of 15 commands, an enumeration in the order of the opcode map (R61).
The 4-bit value 15 is no member of it (R70). -/
inductive Cmd where
  | setLed
  | getLed
  | setMotorAForward
  | setMotorAReverse
  | getMotorA
  | setMotorBForward
  | setMotorBReverse
  | getMotorB
  | allOff
  | getDriveFaultFlagA
  | getDriveFaultFlagB
  | setMotorsForward
  | setMotorsReverse
  | getBatteryVoltage
  | getId
deriving DecidableEq, Repr

namespace Config

/-- `N`, the bus max-frame-size in bytes (R4). -/
def N : Nat := 6

/-- `MAX_ATTEMPTS`, all write/read cycles of one exchange, the first included (R5). -/
def maxAttempts : Nat := 3

/-- `BOARD_ID` (R6). -/
def boardId : Byte := 0x15#8

/-- `ANALOG_MAX` (R7). -/
def analogMax : Rat := 1023

/-- `PIN_MAX_VOLTAGE`, 363/10 volts (R7). -/
def pinMaxVoltage : Rat := 363 / 10

/-- `PIN_CORRECTION`, 0 volts (R7). -/
def pinCorrection : Rat := 0

/-- `PWM_MAX` (R8). -/
def pwmMax : Rat := 255

/-- `FAULT_OFF` (R8). -/
def faultOff : Byte := 0x00#8

/-- `NCMD`, the number of commands (R8). -/
def ncmd : Nat := 15

/-- `BUS_ADDR` (R9, R31): a single constant whose value no source prints. It has no body, so no proof can
depend on a value of it. -/
opaque busAddr : Nat

/-- FREE VALUE (R18: "a failed `BusRead` leaves it unspecified"): what RXBUF holds after the failed read that draws
number `n`. It has no body: nothing is known of it. See notes/assumptions/3.md. -/
opaque rxAfterFailedRead : Nat → Frame

end Config

end Sys2Proof
end

