-- ==== Sys2Proof/Syntax.lean ====
section
/-! DEFINITION. The instruction set on the wire: one constructor per row of spec/opcode_table.json (R61, R73 to
R87), with the operands the command's own rule gives it. -/

namespace Sys2Proof

/-- A command with its operands. The pad byte of AllOff is no operand: the frame always carries 0x00 (R58, R81). -/
inductive Instr where
  /-- R73, REQ4: the three colour bytes. -/
  | setLed (r g b : Byte)
  /-- R74, REQ1. -/
  | getLed
  /-- R75, REQ2: the magnitude byte. -/
  | setMotorAForward (m : Byte)
  /-- R76, REQ2: the magnitude byte. -/
  | setMotorAReverse (m : Byte)
  /-- R77, REQ1. -/
  | getMotorA
  /-- R78, REQ2: the magnitude byte. -/
  | setMotorBForward (m : Byte)
  /-- R79, REQ2: the magnitude byte. -/
  | setMotorBReverse (m : Byte)
  /-- R80, REQ1. -/
  | getMotorB
  /-- R81, REQ2 with the pad 0x00. -/
  | allOff
  /-- R82, REQ1. -/
  | getDriveFaultFlagA
  /-- R83, REQ1. -/
  | getDriveFaultFlagB
  /-- R84, REQ2: the magnitude byte. -/
  | setMotorsForward (m : Byte)
  /-- R85, REQ2: the magnitude byte. -/
  | setMotorsReverse (m : Byte)
  /-- R86, REQ1. -/
  | getBatteryVoltage
  /-- R87, REQ1. -/
  | getId
deriving DecidableEq, Repr

end Sys2Proof
end

