-- ==== Sys2Proof/WellFormed.lean ====
section
/-! DEFINITION. What is checked of an instruction and of a request frame before it may go on the bus: its length
(spec/00_scope.md R4, spec/20_memory.md R35). Operands are bytes by their type, and the pad of AllOff is not an
operand, so an instruction has nothing else that could be wrong. -/

namespace Sys2Proof

/-- How many payload bytes follow the opcode: REQ1, REQ2 or REQ4 (R51 to R53, R63). -/
def Instr.payloadLength : Instr → Nat
  | .setLed _ _ _ => 3
  | .getLed => 0
  | .setMotorAForward _ => 1
  | .setMotorAReverse _ => 1
  | .getMotorA => 0
  | .setMotorBForward _ => 1
  | .setMotorBReverse _ => 1
  | .getMotorB => 0
  | .allOff => 1
  | .getDriveFaultFlagA => 0
  | .getDriveFaultFlagB => 0
  | .setMotorsForward _ => 1
  | .setMotorsReverse _ => 1
  | .getBatteryVoltage => 0
  | .getId => 0

/-- R4: "A request frame is 1 to `N` bytes". -/
def frameLengthOk (bytes : List Byte) : Bool :=
  decide (1 ≤ bytes.length) && decide (bytes.length ≤ Config.N)

/-- R35: the total length of an instruction's request frame does not exceed the bus max-frame-size. -/
def Instr.wellFormed (i : Instr) : Bool :=
  decide (1 + i.payloadLength ≤ Config.N)

end Sys2Proof
end

