-- ==== Sys2Proof/Decode.lean ====
section
/-! DEFINITION. The catalog (ENC, DEC, NAME of spec/40_catalog.md R70 to R72) and the two directions of the request
frame formats (spec/30_encoding.md R50 to R53, R61, R63): decode, total on any bytes, and encode. -/

namespace Sys2Proof

/-- `ENC` (R70), the opcode map of R61. Every selection is by table lookup: no opcode is computed from another (R88). -/
def Cmd.enc : Cmd → Byte
  | .setLed => 0x01#8
  | .getLed => 0x02#8
  | .setMotorAForward => 0x08#8
  | .setMotorAReverse => 0x09#8
  | .getMotorA => 0x0A#8
  | .setMotorBForward => 0x0B#8
  | .setMotorBReverse => 0x0C#8
  | .getMotorB => 0x0D#8
  | .allOff => 0x0E#8
  | .getDriveFaultFlagA => 0x0F#8
  | .getDriveFaultFlagB => 0x10#8
  | .setMotorsForward => 0x11#8
  | .setMotorsReverse => 0x12#8
  | .getBatteryVoltage => 0x15#8
  | .getId => 0x99#8

/-- The commands in the order of the opcode map (R61). -/
def Cmd.all : List Cmd :=
  [.setLed, .getLed, .setMotorAForward, .setMotorAReverse, .getMotorA, .setMotorBForward, .setMotorBReverse,
    .getMotorB, .allOff, .getDriveFaultFlagA, .getDriveFaultFlagB, .setMotorsForward, .setMotorsReverse,
    .getBatteryVoltage, .getId]

/-- `DEC` (R71): the command whose opcode is `b`, and none (`Invalid`) for the other 241 bytes. -/
def Cmd.dec (b : Byte) : Option Cmd :=
  Cmd.all.find? fun c => c.enc == b

/-- The command index 0 to 14 (R61, R70). -/
def Cmd.idx : Cmd → BitVec 4
  | .setLed => 0#4
  | .getLed => 1#4
  | .setMotorAForward => 2#4
  | .setMotorAReverse => 3#4
  | .getMotorA => 4#4
  | .setMotorBForward => 5#4
  | .setMotorBReverse => 6#4
  | .getMotorB => 7#4
  | .allOff => 8#4
  | .getDriveFaultFlagA => 9#4
  | .getDriveFaultFlagB => 10#4
  | .setMotorsForward => 11#4
  | .setMotorsReverse => 12#4
  | .getBatteryVoltage => 13#4
  | .getId => 14#4

/-- The command of a 4-bit index; 15 is not a `CmdIdx` (R70). -/
def Cmd.ofIdx (n : BitVec 4) : Option Cmd :=
  Cmd.all.find? fun c => c.idx == n

/-- `NAME` (R72): the variant name as the opcode map spells it; used for diagnostics only. -/
def Cmd.name : Cmd → String
  | .setLed => "SetLed"
  | .getLed => "GetLed"
  | .setMotorAForward => "SetMotorAForward"
  | .setMotorAReverse => "SetMotorAReverse"
  | .getMotorA => "GetMotorA"
  | .setMotorBForward => "SetMotorBForward"
  | .setMotorBReverse => "SetMotorBReverse"
  | .getMotorB => "GetMotorB"
  | .allOff => "AllOff"
  | .getDriveFaultFlagA => "GetDriveFaultFlagA"
  | .getDriveFaultFlagB => "GetDriveFaultFlagB"
  | .setMotorsForward => "SetMotorsForward"
  | .setMotorsReverse => "SetMotorsReverse"
  | .getBatteryVoltage => "GetBatteryVoltage"
  | .getId => "GetId"

/-- R98: the Get commands go through `exchange`, the Set commands and AllOff through `write_command`. -/
def Cmd.isQuery : Cmd → Bool
  | .setLed => false
  | .getLed => true
  | .setMotorAForward => false
  | .setMotorAReverse => false
  | .getMotorA => true
  | .setMotorBForward => false
  | .setMotorBReverse => false
  | .getMotorB => true
  | .allOff => false
  | .getDriveFaultFlagA => true
  | .getDriveFaultFlagB => true
  | .setMotorsForward => false
  | .setMotorsReverse => false
  | .getBatteryVoltage => true
  | .getId => true

/-- The command an instruction is. -/
def Instr.cmd : Instr → Cmd
  | .setLed _ _ _ => .setLed
  | .getLed => .getLed
  | .setMotorAForward _ => .setMotorAForward
  | .setMotorAReverse _ => .setMotorAReverse
  | .getMotorA => .getMotorA
  | .setMotorBForward _ => .setMotorBForward
  | .setMotorBReverse _ => .setMotorBReverse
  | .getMotorB => .getMotorB
  | .allOff => .allOff
  | .getDriveFaultFlagA => .getDriveFaultFlagA
  | .getDriveFaultFlagB => .getDriveFaultFlagB
  | .setMotorsForward _ => .setMotorsForward
  | .setMotorsReverse _ => .setMotorsReverse
  | .getBatteryVoltage => .getBatteryVoltage
  | .getId => .getId

/-- Why bytes are no request frame of the 15 commands. -/
inductive DecodeError where
  /-- There is no byte 0. -/
  | empty
  /-- Byte 0 is one of the 241 unassigned values (R62). -/
  | unassignedOpcode (b : Byte)
  /-- Fewer payload bytes than the one length the command has (R63). -/
  | tooShort (c : Cmd)
  /-- AllOff with a pad byte other than 0x00, which the codec never sends (R58). -/
  | padNotZero (b : Byte)
deriving DecidableEq, Repr

/-- The magnitude byte of a REQ2 motor frame (R52). -/
def takeMagnitude (c : Cmd) (mk : Byte → Instr) : List Byte → Except DecodeError (Instr × List Byte)
  | m :: rest => .ok (mk m, rest)
  | [] => .error (.tooShort c)

/-- The payload of a command whose opcode has been read (R51 to R53, R63). -/
def decodePayload : Cmd → List Byte → Except DecodeError (Instr × List Byte)
  | .setLed, r :: g :: b :: rest => .ok (.setLed r g b, rest)
  | .setLed, _ => .error (.tooShort .setLed)
  | .getLed, rest => .ok (.getLed, rest)
  | .setMotorAForward, bytes => takeMagnitude .setMotorAForward .setMotorAForward bytes
  | .setMotorAReverse, bytes => takeMagnitude .setMotorAReverse .setMotorAReverse bytes
  | .getMotorA, rest => .ok (.getMotorA, rest)
  | .setMotorBForward, bytes => takeMagnitude .setMotorBForward .setMotorBForward bytes
  | .setMotorBReverse, bytes => takeMagnitude .setMotorBReverse .setMotorBReverse bytes
  | .getMotorB, rest => .ok (.getMotorB, rest)
  | .allOff, pad :: rest => if pad = 0x00#8 then .ok (.allOff, rest) else .error (.padNotZero pad)
  | .allOff, [] => .error (.tooShort .allOff)
  | .getDriveFaultFlagA, rest => .ok (.getDriveFaultFlagA, rest)
  | .getDriveFaultFlagB, rest => .ok (.getDriveFaultFlagB, rest)
  | .setMotorsForward, bytes => takeMagnitude .setMotorsForward .setMotorsForward bytes
  | .setMotorsReverse, bytes => takeMagnitude .setMotorsReverse .setMotorsReverse bytes
  | .getBatteryVoltage, rest => .ok (.getBatteryVoltage, rest)
  | .getId, rest => .ok (.getId, rest)

/-- The instruction at the head of a byte sequence, and the bytes after it; an unassigned byte 0 answers `Invalid`
(R62 (b), R71). -/
def decode : List Byte → Except DecodeError (Instr × List Byte)
  | [] => .error .empty
  | op :: payload =>
    match Cmd.dec op with
    | some c => decodePayload c payload
    | none => .error (.unassignedOpcode op)

/-- The payload bytes of an instruction's request frame, in wire order (R52, R53, R57 to R59). -/
def Instr.extra : Instr → List Byte
  | .setLed r g b => [r, g, b]
  | .getLed => []
  | .setMotorAForward m => [m]
  | .setMotorAReverse m => [m]
  | .getMotorA => []
  | .setMotorBForward m => [m]
  | .setMotorBReverse m => [m]
  | .getMotorB => []
  | .allOff => [0x00#8]
  | .getDriveFaultFlagA => []
  | .getDriveFaultFlagB => []
  | .setMotorsForward m => [m]
  | .setMotorsReverse m => [m]
  | .getBatteryVoltage => []
  | .getId => []

/-- The request frame of an instruction (R50): `[op] ++ extra`. -/
def encode (i : Instr) : List Byte :=
  i.cmd.enc :: i.extra

/-- The bytes of a frame, byte 0 first (R33). -/
def Frame.toList (f : Frame) : List Byte :=
  [f.b0, f.b1, f.b2, f.b3, f.b4, f.b5]

/-- Byte `k` of a number whose bit 0 is the least significant bit of the first byte. -/
def byteOfNat (w k : Nat) : Byte :=
  BitVec.ofNat 8 (w >>> (8 * k))

/-- The frame whose first `nbits` bits are `w`, numbered as spec/opcode_table.json numbers them, and whose other bits
are 0. -/
def frameOfTableWord (nbits w : Nat) : Frame :=
  let v := w % 2 ^ nbits
  ⟨byteOfNat v 0, byteOfNat v 1, byteOfNat v 2, byteOfNat v 3, byteOfNat v 4, byteOfNat v 5⟩

/-- The instruction the decoder reads from an instruction whose bits are `w`. -/
def decodeTableWord (nbits w : Nat) : Option Instr :=
  match decode (frameOfTableWord nbits w).toList with
  | .ok (i, _) => some i
  | .error _ => none

end Sys2Proof
end

