-- ==== Sys2Proof/Machine/State.lean ====
section
/-! DEFINITION. The state of the codec (spec/10_state.md) as plain data: its eight registers, the four ports of R10 as
lists of what has been presented, answered, delivered and seen, and the position inside an operation that the
pseudocode of spec/41_primitives.md and spec/44_lifecycle.md implies. -/

namespace Sys2Proof.Machine

/-! ## The host operation port (R11, R12) -/

/-- `PowerValue` (R28, R110). -/
inductive PowerValue where
  | finite (q : Rat)
  | posInf
  | negInf
  | nan
deriving DecidableEq, Repr

/-- A power operand as the port carries it in `POWER_FMT` (R9, R11): the value itself, or the 32 bits of the default
format (R120). -/
inductive Power where
  | exact (p : PowerValue)
  | binary32 (w : BitVec 32)
deriving DecidableEq, Repr

/-- `OP` of R11, the 10 host operations of R64. -/
inductive OpName where
  | openCodec
  | closeCodec
  | setLed
  | setMotors
  | setMotorA
  | setMotorB
  | getDriveFaultA
  | getDriveFaultB
  | getBatteryVoltage
  | stop
deriving DecidableEq, Repr

/-- The request side of the host operation port (R11). Operands an operation does not read are ignored. -/
structure Request where
  op : OpName
  r : Byte
  g : Byte
  b : Byte
  power : Power
deriving DecidableEq, Repr

/-- The four error kinds (R190 to R194). -/
inductive ErrorKind where
  | transportUnavailable
  | unexpectedDevice
  | ioError
  | echoMismatch (c : Cmd)
deriving DecidableEq, Repr

/-- The four reasons of a refusal on the result port (R190, R195). -/
inductive RefuseReason where
  | notReady
  | alreadyOpen
  | badOperand
  | frameTooLong
deriving DecidableEq, Repr

/-- The result of an operation (R12). `okFrame` is what `exchange` itself returns (R92); only a command run at the
primitive level, with no host operation around it, ends so. -/
inductive Result where
  | ok
  | okBool (b : Bool)
  | okVolts (v : Rat)
  | okFrame (f : Frame)
  | err (k : ErrorKind)
  | refused (r : RefuseReason)
deriving DecidableEq, Repr

/-! ## The bus port (R28, R43, R97) -/

/-- What the transport answers to one bus transaction (R43). The six bytes of `ok` are what a `BusRead` returns; a
`BusOpen` or a `BusWrite` takes no notice of them. -/
inductive Answer where
  | fail
  | ok (frame : Frame)
deriving DecidableEq, Repr

/-- One event of the trace (R97), appended with the answer of its transaction (notes/assumptions/18.md). A `read` carries
its frame only when the transaction succeeded. -/
inductive Event where
  | busOpen (ok : Bool)
  | write (bytes : List Byte) (ok : Bool)
  | read (frame : Option Frame)
deriving DecidableEq, Repr

/-- `PHASE` (R14). -/
inductive Phase where
  | idle
  | writing
  | reading
deriving DecidableEq, Repr

/-! ## The machine -/

/-- The state of the codec. -/
structure State where
  /-- `READY` (R13). -/
  ready : Bool
  /-- `PHASE` (R14). -/
  phase : Phase
  /-- `CUR` (R15). -/
  cur : Cmd
  /-- `ATTEMPT` (R16). -/
  attempt : BitVec 2
  /-- `TXBUF` (R17). -/
  txbuf : Frame
  /-- `TXLEN` (R17). -/
  txlen : BitVec 3
  /-- `RXBUF` (R18). -/
  rxbuf : Frame
  /-- `LAST_CLOSE_FAILED` (R19). -/
  lastCloseFailed : Bool
  /-- The results delivered on the result port since reset, oldest first (R12); the last of them is the "last result"
  of R27. -/
  results : List Result
  /-- The trace (R97), oldest first. -/
  trace : List Event
  /-- The host operation in progress; none between operations and in a command run at the primitive level. Implied by
  the pseudocode: the AllOff of CLOSE ends otherwise than that of STOP (R118, R173). -/
  op : Option OpName
  /-- Whether the outstanding transaction is the `BusOpen` of OPEN; `PHASE` is `WRITING` for it too (R14). -/
  busOpening : Bool
  /-- Operations presented on the request side and not yet accepted, oldest first (R14: held, not dropped). -/
  requests : List Request
  /-- The transport's coming answers, in order; empty means that none has come (R43, R224). -/
  answers : List Answer
  /-- A request frame handed straight to the primitives, to be decoded and run by the next step. No host operation
  puts one here (R11). See notes/assumptions/5.md. -/
  slot : Option Frame
  /-- The model's own: how many free values have been drawn (notes/assumptions/3.md). -/
  draws : Nat
deriving DecidableEq, Repr

/-- Why the machine stops. -/
inductive Fault where
  /-- Raised by `step` alone, for a frame in `slot` that is no request frame of the 15 commands. `ENC` is defined on
  the 15 commands only, so the codec can never write such a frame (R62 (a)), and no rule gives one an effect. SAFE: the
  machine stops, no host operation leads here, and nothing can be proved of a run after it. -/
  | notARequestFrame (e : DecodeError)
deriving DecidableEq, Repr

/-- Why an instruction has no meaning. -/
inductive Refusal where
  /-- For an arm of `exec` that has no meaning yet. Nothing raises it: every command has its meaning. SAFE. -/
  | notModelled (mnemonic : String)
deriving DecidableEq, Repr

/-- What one step answers. -/
abbrev StepResult := Host.Outcome State Fault Refusal

/-- The state after reset (R27, R220). CUR, TXBUF, TXLEN and RXBUF, which the rules leave unspecified, hold the values
named in notes/assumptions/1.md (DESIGN CHOICE, unsafe): the first command of the map, its one-byte frame, zeros. -/
def State.reset : State where
  ready := false
  phase := .idle
  cur := .setLed
  attempt := 0#2
  txbuf := ⟨0x01#8, 0#8, 0#8, 0#8, 0#8, 0#8⟩
  txlen := 1#3
  rxbuf := ⟨0#8, 0#8, 0#8, 0#8, 0#8, 0#8⟩
  lastCloseFailed := false
  results := []
  trace := []
  op := none
  busOpening := false
  requests := []
  answers := []
  slot := none
  draws := 0

end Sys2Proof.Machine
end

