-- ==== Sys2Proof/Machine/Operands.lean ====
section
/-! DEFINITION. Typed values to wire bytes and back: the power operand, its clamp, magnitude byte and direction
(spec/42_set_operations.md R110 to R113, R120), payload indexing (spec/30_encoding.md R56), the raw reading and the
battery voltage (spec/43_get_operations.md R144, R145) and the default format of the voltage (R146). -/

namespace Sys2Proof.Machine

/-! ## The power operand -/

/-- `m * 2^k`, exact. -/
def scaleByPow2 (m : Nat) : Int → Rat
  | .ofNat k => ((m * 2 ^ k : Nat) : Rat)
  | .negSucc k => mkRat m (2 ^ (k + 1))

/-- The value of a sign bit and a magnitude. -/
def withSign (negative : Bool) (q : Rat) : Rat :=
  if negative then -q else q

/-- The value that 32 bits denote in the default `POWER_FMT`, IEEE 754 binary32 (R120). -/
def binary32Value (w : BitVec 32) : PowerValue :=
  let negative := w.getLsbD 31
  let e := (w.extractLsb' 23 8).toNat
  let f := (w.extractLsb' 0 23).toNat
  if e = 255 then
    if f = 0 then (if negative then .negInf else .posInf) else .nan
  else if e = 0 then
    .finite (withSign negative (scaleByPow2 f (-149)))
  else
    .finite (withSign negative (scaleByPow2 (2 ^ 23 + f) ((e : Int) - 150)))

/-- The value of a power operand as the port carries it: every rule is stated on the value (R9, R110). -/
def Power.value : Power → PowerValue
  | .exact p => p
  | .binary32 w => binary32Value w

/-- `abs` of R28. -/
def absQ (q : Rat) : Rat :=
  if q < 0 then -q else q

/-- The clamp of a finite power (R110); it lands in [-1, 1] and is idempotent (R121 (a)). -/
def clampQ (q : Rat) : Rat :=
  if q < -1 then -1 else if 1 < q then 1 else q

/-- `clamp` (R110); none for NaN, for which it is not defined (R119). -/
def clamp : PowerValue → Option Rat
  | .finite q => some (clampQ q)
  | .posInf => some 1
  | .negInf => some (-1)
  | .nan => none

/-- `floor(abs(q) * 255)` as a byte, for a clamped `q` (R57, R111). -/
def magnitudeOf (q : Rat) : Byte :=
  BitVec.ofInt 8 (absQ q * Config.pwmMax).floor

/-- `magnitude_byte` (R111); none for NaN. It is even, 255 at 1 and 0 at 0 (R121 (b), (c)). -/
def magnitudeByte (p : PowerValue) : Option Byte :=
  (clamp p).map magnitudeOf

/-- `forward` (R112); none for NaN. -/
def forward (p : PowerValue) : Option Bool :=
  (clamp p).map fun q => decide (0 ≤ q)

/-- `marshal_power` (R113): the Forward or the Reverse command with its magnitude byte, by the sign alone (R121 (e)); none
for NaN (R119). -/
def marshalPower (fwd rev : Byte → Instr) (p : PowerValue) : Option Instr :=
  (clamp p).map fun q => if 0 ≤ q then fwd (magnitudeOf q) else rev (magnitudeOf q)

/-! ## The response payload -/

/-- `payload[i]` is `frame[i + 1]`, for `i` from 0 to 4 (R56). -/
def payload (f : Frame) : Fin 5 → Byte
  | 0 => f.b1
  | 1 => f.b2
  | 2 => f.b3
  | 3 => f.b4
  | 4 => f.b5

/-- `raw_of` (R60, R144): two payload bytes, the high byte first (R34). -/
def rawOf (f : Frame) : Half :=
  ((payload f 0).setWidth 16 <<< 8) ||| (payload f 1).setWidth 16

/-- `volts_of` (R145): an exact rational, in volts. -/
def voltsOf (raw : Half) : Rat :=
  (raw.toNat : Rat) / Config.analogMax * Config.pinMaxVoltage + Config.pinCorrection

/-! ## The default format of the voltage result -/

/-- The natural number nearest to `n / d`, a tie going to the even one (R146). -/
def roundHalfEven (n d : Nat) : Nat :=
  if 2 * (n % d) < d then n / d
  else if d < 2 * (n % d) then n / d + 1
  else n / d + n / d % 2

/-- Whether `2^k <= n / d`. -/
def pow2Le (n d : Nat) : Int → Bool
  | .ofNat k => decide (d * 2 ^ k ≤ n)
  | .negSucc k => decide (d ≤ n * 2 ^ (k + 1))

/-- The greatest `k` with `2^k <= n / d`, for `n` and `d` above 0. -/
def log2Floor (n d : Nat) : Int :=
  let k : Int := (n.log2 : Int) - (d.log2 : Int)
  if pow2Le n d k then k else k - 1

/-- `n / d / 2^k` rounded to nearest even. -/
def roundScaled (n d : Nat) : Int → Nat
  | .ofNat k => roundHalfEven n (d * 2 ^ k)
  | .negSucc k => roundHalfEven (n * 2 ^ (k + 1)) d

/-- The binary32 pattern nearest to a rational, ties to even (R146): 24 significand bits, an exponent not below -126,
infinity where the rounded value overflows. -/
def toBinary32 (q : Rat) : BitVec 32 :=
  let n := q.num.natAbs
  let d := q.den
  if n = 0 then 0#32
  else
    let e := max (log2Floor n d) (-126)
    let mag := min ((e + 126).toNat * 2 ^ 23 + roundScaled n d (e - 23)) 0x7F800000
    BitVec.ofNat 32 (if q < 0 then 2 ^ 31 + mag else mag)

end Sys2Proof.Machine
end

