-- ==== Sys2Proof/Machine/Flags.lean ====
section
/-! DEFINITION. The flag-like values of spec/10_state.md R20 and the codes of the result port (spec/60_exceptions.md
R190). -/

namespace Sys2Proof.Machine

/-- `echo_ok` (R93): byte 0 equals the opcode of the command, all 8 bits, and nothing else is looked at. -/
def echoOk (f : Frame) (c : Cmd) : Bool :=
  f.b0 == c.enc

/-- `ECHO_OK` (R20): the combinational value `RXBUF[0] = ENC(CUR)`. -/
def State.echoOkFlag (s : State) : Bool :=
  echoOk s.rxbuf s.cur

/-- `OP_READY` (R20): the combinational value `PHASE = IDLE`. -/
def State.opReady (s : State) : Bool :=
  s.phase == .idle

/-- `fault_of` (R142): true when payload byte 0 is not the OFF sentinel. -/
def faultOf (f : Frame) : Bool :=
  payload f 0 != Config.faultOff

/-- The code of an error kind (R190). -/
def ErrorKind.code : ErrorKind → BitVec 4
  | .transportUnavailable => 1#4
  | .unexpectedDevice => 2#4
  | .ioError => 3#4
  | .echoMismatch _ => 4#4

/-- The code of a refusal reason; bit 3 is set (R190). -/
def RefuseReason.code : RefuseReason → BitVec 4
  | .notReady => 8#4
  | .alreadyOpen => 9#4
  | .badOperand => 10#4
  | .frameTooLong => 11#4

/-- `STATUS` (R190). -/
def Result.status : Result → BitVec 4
  | .ok => 0#4
  | .okBool _ => 0#4
  | .okVolts _ => 0#4
  | .okFrame _ => 0#4
  | .err k => k.code
  | .refused r => r.code

/-- `ERR_CMD` (R190, R194): the index of the command an EchoMismatch names. -/
def Result.errCmd : Result → Option (BitVec 4)
  | .err (.echoMismatch c) => some c.idx
  | _ => none

/-- The Boolean a fault query answers (R12). -/
def Result.boolValue : Result → Option Bool
  | .okBool b => some b
  | _ => none

/-- The voltage as the result port carries it in the default `VOLT_FMT` (R12, R146). -/
def Result.voltPattern : Result → Option (BitVec 32)
  | .okVolts v => some (toBinary32 v)
  | _ => none

/-- The "last result" of R27: none until an operation has completed. -/
def State.lastResult (s : State) : Option Result :=
  s.results.getLast?

/-- Whether a transaction was answered `Ok` (R28). -/
def Answer.isOk : Answer → Bool
  | .fail => false
  | .ok _ => true

/-- The address a bus event goes to: the one address `BUS_ADDR`, whatever the event (R30). -/
def Event.address (_ : Event) : Nat :=
  Config.busAddr

end Sys2Proof.Machine
end

