-- ==== Sys2Proof/Machine/Ops.lean ====
section
/-! DEFINITION. The shared operations: the transmit buffer, the end of an operation with a value, an error or a
refusal (spec/60_exceptions.md R195, R198, R199), and the two primitives of spec/41_primitives.md. A primitive runs
until it completes or until the transport has given no answer; it then stands in PHASE WRITING or READING (R14,
R224), and the same `await` operation takes the answer up when it comes. -/

namespace Sys2Proof

/-- The frame of the first six of a list of bytes. -/
def frameOfBytes (bytes : List Byte) : Frame :=
  ⟨bytes.getD 0 0, bytes.getD 1 0, bytes.getD 2 0, bytes.getD 3 0, bytes.getD 4 0, bytes.getD 5 0⟩

/-- A frame with its leading bytes replaced; the bytes above them stay (R17, R90). -/
def Frame.overwrite (f : Frame) (bytes : List Byte) : Frame :=
  frameOfBytes (bytes ++ f.toList.drop bytes.length)

end Sys2Proof

namespace Sys2Proof.Machine

/-! ## The transmit buffer -/

/-- The request frame being written: `TXBUF[0 .. TXLEN-1]` (R17). -/
def State.txFrame (s : State) : List Byte :=
  s.txbuf.toList.take s.txlen.toNat

/-- CUR, TXLEN and TXBUF as a primitive sets them for the command `c` with payload `extra` (R90, R92). -/
def State.loadFrame (s : State) (c : Cmd) (extra : List Byte) : State :=
  { s with
    cur := c
    txlen := BitVec.ofNat 3 (1 + extra.length)
    txbuf := s.txbuf.overwrite (c.enc :: extra) }

/-! ## The end of an operation -/

/-- The operation ends with a result, and the codec is in IDLE again (R12, R14, R199). -/
def finish (r : Result) (s : State) : State :=
  { s with phase := .idle, op := none, busOpening := false, results := s.results ++ [r] }

/-- TAKING AN ERROR (R198), for every error kind: the status goes to the result port, PHASE to IDLE, and READY keeps
its value. There is no vector, no saved context and nothing to return from (R199). -/
def raise (e : ErrorKind) (s : State) : State :=
  finish (.err e) s

/-- A refusal (R195): the operation ends before any bus traffic and with no other state changed. -/
def refuse (q : RefuseReason) (s : State) : State :=
  finish (.refused q) s

/-! ## write_command (R90, R91) -/

/-- The outstanding `BusWrite` of `write_command`: its answer, if one has come, is the primitive's result. DESIGN CHOICE,
unsafe (notes/assumptions/18.md): the event of R97 is appended with the answer, so a write that is never answered, or
that a reset abandons, leaves none. -/
def awaitWrite (done : Bool → State → State) (s : State) : State :=
  match s.answers with
  | [] => s
  | a :: rest => done a.isOk { s with answers := rest, trace := s.trace ++ [.write s.txFrame a.isOk] }

/-- `write_command(c, extra)` (R90), with what the operation around it does on `Ok(())` and on a failed write: one write,
no read and no retry (R121 (d), (f)). -/
def writeCommand (c : Cmd) (extra : List Byte) (done : Bool → State → State) (s : State) : State :=
  if Config.N < 1 + extra.length then refuse .frameTooLong s
  else awaitWrite done { s.loadFrame c extra with phase := .writing }

/-- The end of an operation that is `return write_command(...)` (R114 to R118). -/
def returnWrite (ok : Bool) (s : State) : State :=
  if ok then finish .ok s else raise .ioError s

/-! ## exchange and the response frame validator (R92 to R96) -/

/-- The outstanding `BusRead` of a cycle. A failed read ends the exchange (R95); a frame that fails the echo check is
not interpreted (R96) and the exchange goes on with `retry`; a valid one goes to `accept`. DESIGN CHOICE, unsafe
(notes/assumptions/18.md): the event of R97 is appended with the answer. -/
def awaitRead (accept retry : State → State) (s : State) : State :=
  match s.answers with
  | [] => s
  | .fail :: rest =>
    raise .ioError
      { s with
        answers := rest
        trace := s.trace ++ [.read none]
        rxbuf := Config.rxAfterFailedRead s.draws
        draws := s.draws + 1 }
  | .ok f :: rest =>
    let t : State := { s with answers := rest, trace := s.trace ++ [.read (some f)], rxbuf := f }
    if echoOk f s.cur then accept t else retry t

/-- The outstanding `BusWrite` of a cycle. A failed write ends the exchange and no read follows it (R95). DESIGN CHOICE,
unsafe (notes/assumptions/18.md): the event of R97 is appended with the answer. -/
def awaitCycleWrite (accept retry : State → State) (s : State) : State :=
  match s.answers with
  | [] => s
  | .fail :: rest =>
    raise .ioError { s with answers := rest, trace := s.trace ++ [.write s.txFrame false] }
  | .ok _ :: rest =>
    awaitRead accept retry
      { s with answers := rest, trace := s.trace ++ [.write s.txFrame true], phase := .reading }

/-- The loop of `exchange` with `n` cycles left (R92, R94). -/
def cycles (accept : State → State) : Nat → State → State
  | 0, s => raise (.echoMismatch s.cur) s
  | n + 1, s =>
    awaitCycleWrite accept (cycles accept n) { s with attempt := s.attempt + 1#2, phase := .writing }

/-- The cycles the exchange in progress may still start: `MAX_ATTEMPTS - ATTEMPT` (R92). -/
def State.cyclesLeft (s : State) : Nat :=
  Config.maxAttempts - s.attempt.toNat

/-- `exchange(c)` (R92), with what the operation around it does on a valid frame in RXBUF. -/
def exchange (c : Cmd) (accept : State → State) (s : State) : State :=
  cycles accept Config.maxAttempts { s.loadFrame c [] with attempt := 0#2 }

end Sys2Proof.Machine
end

