-- ==== Sys2Proof/Machine/GetCommands.lean ====
section
/-! DEFINITION. The commands that query the board, each through `exchange` (R98): the fault flags and the battery
voltage (spec/43_get_operations.md R140 to R145), and the three queries that no host operation issues and whose payload
no rule lays out (R147). -/

namespace Sys2Proof.Machine

/-- The end of `exchange` itself: `Ok(RXBUF)` (R92). The payload is not decoded (R147). -/
def endExchange (s : State) : State :=
  finish (.okFrame s.rxbuf) s

/-- The end of GET_DRIVE_FAULT_A: `Ok(fault_of(f))` (R140). -/
def endDriveFaultA (s : State) : State :=
  finish (.okBool (faultOf s.rxbuf)) s

/-- The end of GET_DRIVE_FAULT_B: `Ok(fault_of(f))` (R141). -/
def endDriveFaultB (s : State) : State :=
  finish (.okBool (faultOf s.rxbuf)) s

/-- The end of GET_BATTERY_VOLTAGE: `Ok(volts_of(raw_of(f)))` (R143). -/
def endBatteryVoltage (s : State) : State :=
  finish (.okVolts (voltsOf (rawOf s.rxbuf))) s

/-- GetLed (R74): the primitive `exchange(GetLed)`. -/
def execGetLed (s : State) : StepResult :=
  .next (exchange .getLed endExchange s)

/-- GetMotorA (R77): the primitive `exchange(GetMotorA)`. -/
def execGetMotorA (s : State) : StepResult :=
  .next (exchange .getMotorA endExchange s)

/-- GetMotorB (R80): the primitive `exchange(GetMotorB)`. -/
def execGetMotorB (s : State) : StepResult :=
  .next (exchange .getMotorB endExchange s)

/-- GetDriveFaultFlagA (R82, R140). -/
def execGetDriveFaultFlagA (s : State) : StepResult :=
  .next (exchange .getDriveFaultFlagA endDriveFaultA s)

/-- GetDriveFaultFlagB (R83, R141). -/
def execGetDriveFaultFlagB (s : State) : StepResult :=
  .next (exchange .getDriveFaultFlagB endDriveFaultB s)

/-- GetBatteryVoltage (R86, R143). -/
def execGetBatteryVoltage (s : State) : StepResult :=
  .next (exchange .getBatteryVoltage endBatteryVoltage s)

end Sys2Proof.Machine
end

