-- ==== Sys2Proof/Machine/Lifecycle.lean ====
section
/-! DEFINITION. GetId, the handshake command (spec/40_catalog.md R87, spec/44_lifecycle.md R170, R171), and the table of
what takes up a valid frame, by command. -/

namespace Sys2Proof.Machine

/-- The identifier check (R171), made once on the frame that passed the echo check: READY is set, or the operation
ends with UnexpectedDevice and READY keeps its value (R172, R192). -/
def endHandshake (s : State) : State :=
  if payload s.rxbuf 0 = Config.boardId then finish .ok { s with ready := true }
  else raise .unexpectedDevice s

/-- GetId (R87, R170): the handshake exchange of OPEN with its identifier check. -/
def execGetId (s : State) : StepResult :=
  .next (exchange .getId endHandshake s)

/-- What takes up the valid frame of the exchange in progress. A Set command or AllOff sent through `exchange`, which no
operation does (R98), would return the frame. -/
def acceptOf : Cmd → State → State
  | .getDriveFaultFlagA => endDriveFaultA
  | .getDriveFaultFlagB => endDriveFaultB
  | .getBatteryVoltage => endBatteryVoltage
  | .getId => endHandshake
  | .getLed => endExchange
  | .getMotorA => endExchange
  | .getMotorB => endExchange
  | .setLed => endExchange
  | .setMotorAForward => endExchange
  | .setMotorAReverse => endExchange
  | .setMotorBForward => endExchange
  | .setMotorBReverse => endExchange
  | .allOff => endExchange
  | .setMotorsForward => endExchange
  | .setMotorsReverse => endExchange

end Sys2Proof.Machine
end

