-- ==== Sys2Proof/Machine/SetCommands.lean ====
section
/-! DEFINITION. The commands that only write: SetLed, the six motor commands and AllOff (spec/40_catalog.md R73, R75,
R76, R78, R79, R81, R84, R85), each through `write_command` (R98). -/

namespace Sys2Proof.Machine

/-- SetLed (R73, R114): `[0x01, r, g, b]`. -/
def execSetLed (r g b : Byte) (s : State) : StepResult :=
  .next (writeCommand .setLed [r, g, b] returnWrite s)

/-- SetMotorAForward (R75, R115): `[0x08, m]`. -/
def execSetMotorAForward (m : Byte) (s : State) : StepResult :=
  .next (writeCommand .setMotorAForward [m] returnWrite s)

/-- SetMotorAReverse (R76, R115): `[0x09, m]`. -/
def execSetMotorAReverse (m : Byte) (s : State) : StepResult :=
  .next (writeCommand .setMotorAReverse [m] returnWrite s)

/-- SetMotorBForward (R78, R116): `[0x0B, m]`. -/
def execSetMotorBForward (m : Byte) (s : State) : StepResult :=
  .next (writeCommand .setMotorBForward [m] returnWrite s)

/-- SetMotorBReverse (R79, R116): `[0x0C, m]`. -/
def execSetMotorBReverse (m : Byte) (s : State) : StepResult :=
  .next (writeCommand .setMotorBReverse [m] returnWrite s)

/-- SetMotorsForward (R84, R117): `[0x11, m]`, one frame for both motors. -/
def execSetMotorsForward (m : Byte) (s : State) : StepResult :=
  .next (writeCommand .setMotorsForward [m] returnWrite s)

/-- SetMotorsReverse (R85, R117): `[0x12, m]`. -/
def execSetMotorsReverse (m : Byte) (s : State) : StepResult :=
  .next (writeCommand .setMotorsReverse [m] returnWrite s)

/-- The end of a teardown (R173, R174): a failed write is recorded, not surfaced; the codec is uninitialized. -/
def endTeardown (ok : Bool) (s : State) : State :=
  finish .ok { s with lastCloseFailed := !ok, ready := false }

/-- The end of AllOff: of the teardown when CLOSE issued it (R173), of `stop()` otherwise (R118). -/
def endAllOff (ok : Bool) (s : State) : State :=
  if s.op = some .closeCodec then endTeardown ok s else returnWrite ok s

/-- AllOff (R81, R118, R173): `[0x0E, 0x00]`, always with the pad 0x00 (R58). -/
def execAllOff (s : State) : StepResult :=
  .next (writeCommand .allOff [0x00#8] endAllOff s)

/-- What ends the `write_command` of a command in progress. -/
def writeEndOf : Cmd → Bool → State → State
  | .allOff => endAllOff
  | _ => returnWrite

end Sys2Proof.Machine
end

