-- ==== Sys2Proof/Machine/Dispatch.lean ====
section
/-! DEFINITION. The meaning of each command (spec/40_catalog.md R73 to R87): one arm per constructor of `Instr`. -/

namespace Sys2Proof.Machine

def exec (i : Instr) (s : State) : Host.Outcome State Fault Refusal :=
  match i with
  | .setLed r g b => Sys2Proof.Machine.execSetLed r g b s
  | .getLed => Sys2Proof.Machine.execGetLed s
  | .setMotorAForward m => Sys2Proof.Machine.execSetMotorAForward m s
  | .setMotorAReverse m => Sys2Proof.Machine.execSetMotorAReverse m s
  | .getMotorA => Sys2Proof.Machine.execGetMotorA s
  | .setMotorBForward m => Sys2Proof.Machine.execSetMotorBForward m s
  | .setMotorBReverse m => Sys2Proof.Machine.execSetMotorBReverse m s
  | .getMotorB => Sys2Proof.Machine.execGetMotorB s
  | .allOff => Sys2Proof.Machine.execAllOff s
  | .getDriveFaultFlagA => Sys2Proof.Machine.execGetDriveFaultFlagA s
  | .getDriveFaultFlagB => Sys2Proof.Machine.execGetDriveFaultFlagB s
  | .setMotorsForward m => Sys2Proof.Machine.execSetMotorsForward m s
  | .setMotorsReverse m => Sys2Proof.Machine.execSetMotorsReverse m s
  | .getBatteryVoltage => Sys2Proof.Machine.execGetBatteryVoltage s
  | .getId => Sys2Proof.Machine.execGetId s

end Sys2Proof.Machine
end

