-- ==== Sys2Proof/Machine/Operations.lean ====
section
/-! DEFINITION. The 10 host operations (spec/30_encoding.md R64): each makes its lifecycle check (R176), its operand
check (R119) and then issues its command (R114 to R118, R140 to R143, R170 to R177). -/

namespace Sys2Proof.Machine

/-- The lifecycle check of the eight operations of R176, made before anything else is looked at. -/
def requireReady (run : State → StepResult) (s : State) : StepResult :=
  if s.ready then run s else .next (refuse .notReady s)

/-- A motor operation (R113, R115 to R117): refused for NaN (R119), else the marshalled command: one write of
2 bytes and no read (R121 (d)). -/
def runMotor (name : OpName) (fwd rev : Byte → Instr) (p : Power) (s : State) : StepResult :=
  match marshalPower fwd rev p.value with
  | none => .next (refuse .badOperand s)
  | some i => exec i { s with op := some name }

/-- The outstanding `BusOpen` of OPEN (R170): its failure ends the operation (R191), else the handshake exchange
follows at once. DESIGN CHOICE, unsafe (notes/assumptions/18.md): the event of R97 is appended with the answer. -/
def awaitBusOpen (s : State) : StepResult :=
  match s.answers with
  | [] => .next s
  | .fail :: rest =>
    .next (raise .transportUnavailable { s with answers := rest, trace := s.trace ++ [.busOpen false] })
  | .ok _ :: rest =>
    exec .getId
      { s with answers := rest, trace := s.trace ++ [.busOpen true], phase := .idle, busOpening := false }

/-- OPEN (R170, R177). -/
def opOpen (s : State) : StepResult :=
  if s.ready then .next (refuse .alreadyOpen s)
  else awaitBusOpen { s with op := some .openCodec, phase := .writing, busOpening := true }

/-- CLOSE (R173, R175): when not ready there is nothing to tear down. -/
def opClose (s : State) : StepResult :=
  if s.ready then exec .allOff { s with op := some .closeCodec } else .next (finish .ok s)

/-- SET_LED (R114). -/
def opSetLed (r g b : Byte) (s : State) : StepResult :=
  requireReady (fun s => exec (.setLed r g b) { s with op := some .setLed }) s

/-- SET_MOTOR_A (R115). -/
def opSetMotorA (p : Power) (s : State) : StepResult :=
  requireReady (runMotor .setMotorA .setMotorAForward .setMotorAReverse p) s

/-- SET_MOTOR_B (R116). -/
def opSetMotorB (p : Power) (s : State) : StepResult :=
  requireReady (runMotor .setMotorB .setMotorBForward .setMotorBReverse p) s

/-- SET_MOTORS (R117). -/
def opSetMotors (p : Power) (s : State) : StepResult :=
  requireReady (runMotor .setMotors .setMotorsForward .setMotorsReverse p) s

/-- STOP (R118): surfaced errors, READY unchanged. -/
def opStop (s : State) : StepResult :=
  requireReady (fun s => exec .allOff { s with op := some .stop }) s

/-- GET_DRIVE_FAULT_A (R140). -/
def opGetDriveFaultA (s : State) : StepResult :=
  requireReady (fun s => exec .getDriveFaultFlagA { s with op := some .getDriveFaultA }) s

/-- GET_DRIVE_FAULT_B (R141). -/
def opGetDriveFaultB (s : State) : StepResult :=
  requireReady (fun s => exec .getDriveFaultFlagB { s with op := some .getDriveFaultB }) s

/-- GET_BATTERY_VOLTAGE (R143). -/
def opGetBatteryVoltage (s : State) : StepResult :=
  requireReady (fun s => exec .getBatteryVoltage { s with op := some .getBatteryVoltage }) s

/-- An operation presented on the port is accepted (R10, R11): only the operands it reads are looked at. -/
def accept (q : Request) (s : State) : StepResult :=
  match q.op with
  | .openCodec => opOpen s
  | .closeCodec => opClose s
  | .setLed => opSetLed q.r q.g q.b s
  | .setMotors => opSetMotors q.power s
  | .setMotorA => opSetMotorA q.power s
  | .setMotorB => opSetMotorB q.power s
  | .getDriveFaultA => opGetDriveFaultA s
  | .getDriveFaultB => opGetDriveFaultB s
  | .getBatteryVoltage => opGetBatteryVoltage s
  | .stop => opStop s

end Sys2Proof.Machine
end

