-- ==== Sys2Proof/Machine/Sequencer.lean ====
section
/-! DEFINITION. The sequencer between and inside operations (spec/10_state.md R14, R23): it takes up the transport's
answer to the outstanding transaction, runs a frame handed to the primitives, or accepts the next held operation. -/

namespace Sys2Proof.Machine

/-- While a transaction is outstanding only the transport's answer lifts it (R224): without one the state stays as it
is. -/
def resume (s : State) : StepResult :=
  match s.phase with
  | .idle => .next s
  | .writing =>
    if s.busOpening then awaitBusOpen s
    else if s.cur.isQuery then
      .next (awaitCycleWrite (acceptOf s.cur) (cycles (acceptOf s.cur) s.cyclesLeft) s)
    else .next (awaitWrite (writeEndOf s.cur) s)
  | .reading => .next (awaitRead (acceptOf s.cur) (cycles (acceptOf s.cur) s.cyclesLeft) s)

/-- The frame in `slot` is taken out, decoded and run. -/
def runSlot (f : Frame) (s : State) : StepResult :=
  match decode f.toList with
  | .ok (i, _) => exec i { s with slot := none }
  | .error e => .fault (.notARequestFrame e)

/-- In IDLE (R14, R220): a frame in `slot`, else the oldest held operation, else the codec waits. -/
def startNext (s : State) : StepResult :=
  match s.slot with
  | some f => runSlot f s
  | none =>
    match s.requests with
    | [] => .next s
    | q :: rest => accept q { s with requests := rest }

/-- One step of the codec. -/
def runSequencer (s : State) : StepResult :=
  match s.phase with
  | .idle => startNext s
  | .writing => resume s
  | .reading => resume s

/-- A state whose next step runs the frame `f`. -/
def State.withSlot (s : State) (f : Frame) : State :=
  { s with slot := some f, phase := .idle, op := none, busOpening := false }

end Sys2Proof.Machine
end

