-- ==== Sys2Proof/Machine/Step.lean ====
section
/-! DEFINITION. One step of the machine, and the state whose next step runs a given instruction. -/

namespace Sys2Proof.Machine

/-- One step (spec/10_state.md R14, R23). -/
def step (s : State) : Host.Outcome State Fault Refusal :=
  runSequencer s

/-- `s` with the instruction whose bits are `w` in the place the next step takes its instruction from: the codec has no
program counter (R23), so the frame goes into `slot`, with no transaction outstanding. See notes/assumptions/5.md. -/
def State.withFetchWord (s : State) (nbits w : Nat) : State :=
  s.withSlot (frameOfTableWord nbits w)

end Sys2Proof.Machine
end

