-- ==== Sys2Proof/Machine/Environment.lean ====
section
/-! DEFINITION. What the outside world does to the codec between two steps: the host presents an operation (R11), the
transport answers (R43), or the codec is reset (spec/70_reset_and_hazards.md R220, R221, R231). -/

namespace Sys2Proof.Machine

/-- What comes in during a run (R230): the host presents an operation, or the transport answers. A reset is neither: it
is "the only event that is not a host operation" (R196). -/
inductive RunInput where
  | present (q : Request)
  | answer (a : Answer)
deriving DecidableEq, Repr

/-- An input of the codec: one of a run, or a reset (R221). -/
inductive Input where
  | run (i : RunInput)
  | reset
deriving DecidableEq, Repr

/-- The operations an input of a run presents. -/
def RunInput.operations : RunInput → List Request
  | .present q => [q]
  | .answer _ => []

/-- Reset at any time (R220, R221): the registers take their reset values, an outstanding transaction is abandoned, and
nothing is written to the bus. What the host still presents and what the transport will still answer are not the
codec's (notes/assumptions/7.md). DESIGN CHOICE, unsafe (notes/assumptions/18.md): the abandoned transaction leaves no
event, as the event of R97 is appended with the answer, which it never got. -/
def State.afterReset (s : State) : State :=
  { State.reset with trace := s.trace, requests := s.requests, answers := s.answers, draws := s.draws }

/-- The state after an input of a run: a presented operation is held behind the earlier ones (R14). -/
def State.take (s : State) : RunInput → State
  | .present q => { s with requests := s.requests ++ [q] }
  | .answer a => { s with answers := s.answers ++ [a] }

/-- The state after an input. -/
def State.receive (s : State) : Input → State
  | .run i => s.take i
  | .reset => s.afterReset

/-- A run (R230), which holds no reset: a step after each input, stopping at the first fault or refusal. -/
def runInputs : List RunInput → State → StepResult
  | [], s => .next s
  | i :: is, s =>
    match step (s.take i) with
    | .next t => runInputs is t
    | .fault f => .fault f
    | .refused r => .refused r

end Sys2Proof.Machine
end

