-- ==== Sys2Proof/Machine/Lookup.lean ====
section
/-! DEFINITION. The catalog lookup port (spec/10_state.md R10 (2)): ENC, DEC and NAME as a host asks them. It reads no
state and writes none (spec/40_catalog.md R70 to R72, R88 (d)). -/

namespace Sys2Proof.Machine

/-- A question on the lookup port. -/
inductive LookupQuery where
  | enc (idx : BitVec 4)
  | dec (b : Byte)
  | name (idx : BitVec 4)
deriving DecidableEq, Repr

/-- Its answer. -/
inductive LookupReply where
  | opcode (b : Byte)
  | command (idx : BitVec 4)
  | text (s : String)
  | invalid
deriving DecidableEq, Repr

/-- The lookup port: the 4-bit value 15 is no command and answers `Invalid` (R70), as an unassigned byte does (R71). -/
def lookup : LookupQuery → LookupReply
  | .enc n =>
    match Cmd.ofIdx n with
    | some c => .opcode c.enc
    | none => .invalid
  | .dec b =>
    match Cmd.dec b with
    | some c => .command c.idx
    | none => .invalid
  | .name n =>
    match Cmd.ofIdx n with
    | some c => .text c.name
    | none => .invalid

end Sys2Proof.Machine
end

