-- ==== Sys2Proof/Machine/TextForm.lean ====
section
/-! DEFINITION. The spellings of the operations and the text form of a wire trace (spec/30_encoding.md R64,
R65). No result, state or trace depends on it. -/

namespace Sys2Proof.Machine

/-- The document's spelling of an operation (R64). -/
def OpName.spelling : OpName → String
  | .openCodec => "open"
  | .closeCodec => "close"
  | .setLed => "set_led"
  | .setMotors => "set_motors"
  | .setMotorA => "set_motor_a"
  | .setMotorB => "set_motor_b"
  | .getDriveFaultA => "get_drive_fault_a"
  | .getDriveFaultB => "get_drive_fault_b"
  | .getBatteryVoltage => "get_battery_voltage"
  | .stop => "stop"

/-- Its name on the operation port (R11, R64). -/
def OpName.portName : OpName → String
  | .openCodec => "OPEN"
  | .closeCodec => "CLOSE"
  | .setLed => "SET_LED"
  | .setMotors => "SET_MOTORS"
  | .setMotorA => "SET_MOTOR_A"
  | .setMotorB => "SET_MOTOR_B"
  | .getDriveFaultA => "GET_DRIVE_FAULT_A"
  | .getDriveFaultB => "GET_DRIVE_FAULT_B"
  | .getBatteryVoltage => "GET_BATTERY_VOLTAGE"
  | .stop => "STOP"

/-- A byte as two hexadecimal digits. -/
def hexByte (b : Byte) : String :=
  let digit (n : Nat) : Char := "0123456789ABCDEF".toList.getD n '0'
  String.ofList [digit (b.toNat / 16), digit (b.toNat % 16)]

/-- Bytes in hexadecimal, separated by spaces. -/
def hexBytes (bytes : List Byte) : String :=
  " ".intercalate (bytes.map hexByte)

/-- The mark of a transaction that returned `Fail`. -/
def failMark (ok : Bool) : String :=
  if ok then "" else "!"

/-- An event as R65 writes it. -/
def Event.text : Event → String
  | .busOpen ok => "OPEN" ++ failMark ok
  | .write bytes ok => "W[" ++ hexBytes bytes ++ "]" ++ failMark ok
  | .read (some f) => "R[" ++ hexBytes f.toList ++ "]"
  | .read none => "R" ++ failMark false

/-- A wire trace as R65 writes it. -/
def traceText (events : List Event) : String :=
  " ".intercalate (events.map Event.text)

end Sys2Proof.Machine
end

