-- ==== Sys2Proof/Safety.lean ====
section
/-! DEFINITION. The terms claims are stated in: the machine's invariant, the stuck and the well-ended states
(spec/70_reset_and_hazards.md R224, R230), which commands an operation issues (spec/30_encoding.md R64), and the states
that the rules say a completed command leaves. -/

namespace Sys2Proof.Machine

/-! ## Which states are which -/

/-- The commands an operation issues (R61, R64). -/
def OpName.issues : OpName → Cmd → Bool
  | .openCodec, c => c == .getId
  | .closeCodec, c => c == .allOff
  | .setLed, c => c == .setLed
  | .setMotors, c => c == .setMotorsForward || c == .setMotorsReverse
  | .setMotorA, c => c == .setMotorAForward || c == .setMotorAReverse
  | .setMotorB, c => c == .setMotorBForward || c == .setMotorBReverse
  | .getDriveFaultA, c => c == .getDriveFaultFlagA
  | .getDriveFaultB, c => c == .getDriveFaultFlagB
  | .getBatteryVoltage, c => c == .getBatteryVoltage
  | .stop, c => c == .allOff

/-- The set operations (42_set_operations.md R114 to R118). -/
def OpName.isSet : OpName → Bool
  | .setLed | .setMotors | .setMotorA | .setMotorB | .stop => true
  | .openCodec | .closeCodec | .getDriveFaultA | .getDriveFaultB | .getBatteryVoltage => false

/-- The Forward and the Reverse command of a motor operation (R115 to R117): the two that R121 (e) says it can write. -/
def OpName.motorPair : OpName → Option (Cmd × Cmd)
  | .setMotorA => some (.setMotorAForward, .setMotorAReverse)
  | .setMotorB => some (.setMotorBForward, .setMotorBReverse)
  | .setMotors => some (.setMotorsForward, .setMotorsReverse)
  | .openCodec | .closeCodec | .setLed | .getDriveFaultA | .getDriveFaultB | .getBatteryVoltage | .stop => none

/-- `p >= 0` of R112 and R121 (e), of the power as it is presented; false of NaN, which has no sign. -/
def PowerValue.isNonneg : PowerValue → Bool
  | .finite q => decide (0 ≤ q)
  | .posInf => true
  | .negInf | .nan => false

/-- The operation a step at `s` works on: the one in progress, or in IDLE the oldest one presented (notes/assumptions/17.md). -/
def WorksOn (s : State) (o : OpName) : Prop :=
  (s.phase ≠ .idle ∧ s.op = some o) ∨ (s.phase = .idle ∧ ∃ q rest, s.requests = q :: rest ∧ q.op = o)

/-- What holds between any two steps. -/
structure Inv (s : State) : Prop where
  /-- R17: "values 1 to 6". -/
  txlenLow : 1 ≤ s.txlen.toNat
  /-- R17: "values 1 to 6". -/
  txlenHigh : s.txlen.toNat ≤ Config.N
  /-- R17: "`TXBUF[0]` is always `ENC(CUR)`". -/
  txHead : s.txbuf.b0 = s.cur.enc
  /-- R14: IDLE between operations. -/
  idleNoOp : s.phase = .idle → s.op = none
  /-- R14: a `BusOpen` is outstanding in PHASE WRITING and in OPEN only. -/
  opening : s.busOpening = true → s.phase = .writing ∧ s.op = some .openCodec
  /-- R14, R98: a `BusRead` is outstanding in an exchange only. -/
  readingQuery : s.phase = .reading → s.cur.isQuery = true
  /-- R50, R90, R92: while a command is in progress the frame on the bus is a request frame of that command. -/
  frameIsRequest : s.phase ≠ .idle → s.busOpening = false → ∃ i : Instr, i.cmd = s.cur ∧ s.txFrame = encode i
  /-- R16: while an exchange is in progress at least one of its cycles has been started. -/
  queryAttempt : s.phase ≠ .idle → s.busOpening = false → s.cur.isQuery = true → 1 ≤ s.attempt.toNat
  /-- R64: the command in progress is one its operation issues. -/
  opIssues : ∀ o, s.op = some o → s.busOpening = false → o.issues s.cur = true
  /-- R176, R177: OPEN runs with READY = 0, every other operation with READY = 1. -/
  opReady : ∀ o, s.op = some o → (s.ready = true ↔ o ≠ .openCodec)

/-- No command was handed to the primitives past the host operation port (R11). -/
def HostDriven (s : State) : Prop :=
  s.slot = none ∧ (s.phase ≠ .idle → s.op ≠ none)

/-- R224: a transaction is outstanding and its answer has not come. -/
def Stuck (s : State) : Prop :=
  s.phase ≠ .idle ∧ s.answers = []

/-- R230: a run, "a finite sequence of host operations starting from the reset state". `HostRun qs s`: the operations
`qs` have been presented, in this order, and the codec has come to `s`. The transport's answers come in between (R43); a
reset does not (R196). -/
inductive HostRun : List Request → State → Prop where
  | start : HostRun [] State.reset
  | take {qs : List Request} {s : State} (i : RunInput) : HostRun qs s → HostRun (qs ++ i.operations) (s.take i)
  | step {qs : List Request} {s t : State} : HostRun qs s → step s = .next t → HostRun qs t

/-- R230: "It has ended well when `PHASE = IDLE`, no operation is held at the port, and `READY = 0`". -/
def EndedWell (qs : List Request) (s : State) : Prop :=
  HostRun qs s ∧ s.phase = .idle ∧ s.requests = [] ∧ s.ready = false

/-- R230: "A run that stops with `READY = 1` has not met the host's teardown duty". -/
def TeardownDutyUnmet (qs : List Request) (s : State) : Prop :=
  HostRun qs s ∧ s.ready = true

/-- The `n`-th operation of a run is an OPEN that has succeeded: each operation ends with one result (R12), and several that
are held are accepted in the order presented, which is the model's (notes/assumptions/17.md, DESIGN CHOICE; R14 holds
one), so the `n`-th has the `n`-th result. -/
def SuccessfulOpenAt (qs : List Request) (s : State) (n : Nat) : Prop :=
  (∃ q, qs[n]? = some q ∧ q.op = .openCodec) ∧ s.results[n]? = some .ok

/-- A later operation of the run than its `n`-th is a CLOSE. -/
def ClosedAfter (qs : List Request) (n : Nat) : Prop :=
  ∃ (m : Nat) (q : Request), n < m ∧ qs[m]? = some q ∧ q.op = .closeCodec

/-- Every state the codec comes to, whatever the host and the transport do, and across resets, which the host may make
at any time (R221, R231). This is no run of R230 (`HostRun`), which no reset is part of: it takes in the states of every
run, and those after a later reset too (notes/assumptions/19.md). -/
inductive Reachable : State → Prop where
  | reset : Reachable State.reset
  | receive {s : State} (i : Input) : Reachable s → Reachable (s.receive i)
  | step {s t : State} : Reachable s → step s = .next t → Reachable t

/-! ## Answers and events of whole cycles -/

/-- The answers of cycles whose read succeeds with a given frame: the write's answer, then the read's. Of each pair the
first is the (ignored) frame of the write's answer. -/
def cycleAnswers (cs : List (Frame × Frame)) : List Answer :=
  cs.flatMap fun p => [.ok p.1, .ok p.2]

/-- The events of such cycles of `exchange(c)` (R97). -/
def cycleEvents (c : Cmd) (cs : List (Frame × Frame)) : List Event :=
  cs.flatMap fun p => [.write [c.enc] true, .read (some p.2)]

/-- Cycles whose frames all fail the echo check for `c` (R93). -/
def AllMismatch (c : Cmd) (cs : List (Frame × Frame)) : Prop :=
  ∀ p ∈ cs, p.2.b0 ≠ c.enc

/-- The frame RXBUF holds after such cycles: the last one read, or what it held before. -/
def lastRead (cs : List (Frame × Frame)) (before : Frame) : Frame :=
  match cs.getLast? with
  | some p => p.2
  | none => before

/-! ## The states the rules say a command leaves -/

/-- The result of `return write_command(...)` for the transport's answer (R90). -/
def writeResult (a : Answer) : Result :=
  if a.isOk then .ok else .err .ioError

/-- A `REQ2` command has been written and its answer taken (R52, R90). -/
def afterReq2 (c : Cmd) (opcode b1 : Byte) (a : Answer) (rest : List Answer) (r : Result) (s : State) : State :=
  { s with
    cur := c
    txlen := 2#3
    txbuf := { s.txbuf with b0 := opcode, b1 := b1 }
    phase := .idle
    op := none
    busOpening := false
    answers := rest
    trace := s.trace ++ [.write [opcode, b1] a.isOk]
    results := s.results ++ [r] }

/-- `exchange(c)` has ended (R92): `attempts` cycles were started, `events` appended, the answers up to `rest` taken. -/
def afterExchange (c : Cmd) (opcode : Byte) (attempts : Nat) (rx : Frame) (events : List Event) (rest : List Answer)
    (r : Result) (s : State) : State :=
  { s with
    cur := c
    txlen := 1#3
    txbuf := { s.txbuf with b0 := opcode }
    attempt := BitVec.ofNat 2 attempts
    rxbuf := rx
    phase := .idle
    op := none
    busOpening := false
    answers := rest
    trace := s.trace ++ events
    results := s.results ++ [r] }

/-- An operation has ended with a result and nothing else has changed (R195). -/
def afterResult (r : Result) (s : State) : State :=
  { s with phase := .idle, op := none, busOpening := false, results := s.results ++ [r] }

end Sys2Proof.Machine
end

