-- ==== Sys2Proof/Certificates/Slice0/Obligations.lean ====
section
/-! DEFINITION. The statements for the provers, from the numbered rules of spec/. -/

open Sys2Proof Sys2Proof.Machine

/-! ## The catalog and the frame formats -/

/-- R70: ENC is the printed table, is injective, and the lookup port answers it for each index and `Invalid` for 15. The
numbering of the commands from 0 to 14 is the spec's decision D2. -/
def Obligations.EncoderIsThePrintedTable : Prop :=
  (Cmd.setLed.enc = 0x01#8 ∧ Cmd.getLed.enc = 0x02#8 ∧ Cmd.setMotorAForward.enc = 0x08#8 ∧
    Cmd.setMotorAReverse.enc = 0x09#8 ∧ Cmd.getMotorA.enc = 0x0A#8 ∧ Cmd.setMotorBForward.enc = 0x0B#8 ∧
    Cmd.setMotorBReverse.enc = 0x0C#8 ∧ Cmd.getMotorB.enc = 0x0D#8 ∧ Cmd.allOff.enc = 0x0E#8 ∧
    Cmd.getDriveFaultFlagA.enc = 0x0F#8 ∧ Cmd.getDriveFaultFlagB.enc = 0x10#8 ∧
    Cmd.setMotorsForward.enc = 0x11#8 ∧ Cmd.setMotorsReverse.enc = 0x12#8 ∧
    Cmd.getBatteryVoltage.enc = 0x15#8 ∧ Cmd.getId.enc = 0x99#8) ∧
  (∀ c d : Cmd, c.enc = d.enc → c = d) ∧
  (∀ c : Cmd, lookup (.enc c.idx) = .opcode c.enc) ∧
  (List.range 15).map (fun n => lookup (.enc (BitVec.ofNat 4 n))) =
    [.opcode 0x01#8, .opcode 0x02#8, .opcode 0x08#8, .opcode 0x09#8, .opcode 0x0A#8, .opcode 0x0B#8, .opcode 0x0C#8,
      .opcode 0x0D#8, .opcode 0x0E#8, .opcode 0x0F#8, .opcode 0x10#8, .opcode 0x11#8, .opcode 0x12#8, .opcode 0x15#8,
      .opcode 0x99#8] ∧
  lookup (.enc 15#4) = .invalid

/-- R71: DEC is the inverse of ENC, and 241 of the 256 bytes are `Invalid`, on the lookup port too. -/
def Obligations.DecoderInvertsTheEncoder : Prop :=
  (∀ (b : Byte) (c : Cmd), Cmd.dec b = some c ↔ c.enc = b) ∧
  (∀ b : Byte, Cmd.dec b = none ↔ ∀ c : Cmd, c.enc ≠ b) ∧
  ((List.range 256).filter fun n => (Cmd.dec (BitVec.ofNat 8 n)).isNone).length = 241 ∧
  (∀ c : Cmd, lookup (.dec c.enc) = .command c.idx) ∧
  (∀ b : Byte, Cmd.dec b = none → lookup (.dec b) = .invalid)

/-- R50 to R53, R61, R63: for every byte sequence, the decoder reads the instruction `i` from it and leaves `rest`
exactly when it is the request frame of `i` followed by `rest`: every operand at every value, and no other bytes. That
AllOff with another pad than 0x00 is none, and that the bytes after a frame are left, is the model's
(notes/assumptions/14.md, DESIGN CHOICE). -/
def Obligations.DecodeAgreesWithEncode : Prop :=
  ∀ (bytes : List Byte) (i : Instr) (rest : List Byte), decode bytes = .ok (i, rest) ↔ bytes = encode i ++ rest

/-- Words written out from the frame patterns of R51 to R53 decode to the command they stand for (a sanity check). -/
def Obligations.WrittenOutFramesDecode : Prop :=
  decode [0b00000001#8, 0x10#8, 0x20#8, 0x30#8] = .ok (.setLed 0x10#8 0x20#8 0x30#8, []) ∧
  decode [0b00001001#8, 0b01111111#8] = .ok (.setMotorAReverse 0x7F#8, []) ∧
  decode [0b00001110#8, 0b00000000#8] = .ok (.allOff, []) ∧
  decode [0b00010101#8] = .ok (.getBatteryVoltage, []) ∧
  decode [0b10011001#8] = .ok (.getId, [])

/-- R4, R35, R37: every request frame is well-formed, 1, 2 or 4 bytes long, and its byte 0 is the opcode of its
command. -/
def Obligations.RequestFramesFitTheBus : Prop :=
  ∀ i : Instr, i.wellFormed = true ∧ frameLengthOk (encode i) = true ∧ (encode i).length = 1 + i.payloadLength ∧
    ((encode i).length = 1 ∨ (encode i).length = 2 ∨ (encode i).length = 4) ∧
    (encode i).head? = some i.cmd.enc

/-! ## The step -/

/-- A step runs the decoded instruction: in IDLE, when the frame in `slot` decodes to `i`, the step is `exec i` of the
state with `slot` empty, and nothing is added around it. `slot` is the model's own (notes/assumptions/5.md). -/
def Obligations.StepRunsTheDecodedInstruction : Prop :=
  ∀ (s : State) (f : Frame) (i : Instr) (rest : List Byte),
    s.phase = .idle → s.slot = some f → decode f.toList = .ok (i, rest) →
    step s = exec i { s with slot := none }

/-- The state `withFetchWord` gives runs the instruction of the word, from any state; `withFetchWord` is the model's own
(notes/assumptions/5.md). -/
def Obligations.FetchWordIsWhatRuns : Prop :=
  ∀ (s : State) (nbits w : Nat) (i : Instr), decodeTableWord nbits w = some i →
    step (s.withFetchWord nbits w) =
      exec i { s with slot := none, phase := .idle, op := none, busOpening := false }

/-- R14, R10: in IDLE, with no frame in `slot`, a step accepts an operation presented and takes it off the request side;
that several may be held, and that the oldest comes first, is the model's (notes/assumptions/17.md, DESIGN CHOICE; R14
and D17 speak of one held operation). With none presented the codec waits (R220): the step leaves the state
(notes/assumptions/4.md). -/
def Obligations.StepAcceptsTheOldestRequest : Prop :=
  (∀ (s : State) (q : Request) (rest : List Request),
    s.phase = .idle → s.slot = none → s.requests = q :: rest → step s = accept q { s with requests := rest }) ∧
  (∀ s : State, s.phase = .idle → s.slot = none → s.requests = [] → step s = .next s)

/-- R14: while PHASE is not IDLE the presented operations are held: none is accepted, dropped or refused. R224: without
the transport's answer the codec has no step of its own: the step leaves the state (notes/assumptions/4.md). -/
def Obligations.OperationsAreHeldWhileOneRuns : Prop :=
  (∀ s t : State, s.phase ≠ .idle → step s = .next t → t.requests = s.requests ∧ t.slot = s.slot) ∧
  (∀ s : State, s.phase ≠ .idle → s.answers = [] → step s = .next s)

/-- No step is refused, and the only fault is that of a frame in `slot` that is no request frame (the model's choice,
notes/assumptions/5.md; R62 (a): the codec never sends such a frame). -/
def Obligations.OnlyAForeignFrameStopsTheMachine : Prop :=
  (∀ (s : State) (r : Refusal), step s ≠ .refused r) ∧
  (∀ (s : State) (x : Fault), step s = .fault x ↔
    ∃ (f : Frame) (e : DecodeError), s.phase = .idle ∧ s.slot = some f ∧ decode f.toList = .error e ∧
      x = .notARequestFrame e)

/-- R62 (b), R71: byte 0 with an unassigned value is no command, whatever follows. That AllOff with another pad than
0x00 is none either is the model's (notes/assumptions/14.md; R58: the codec always sends zero). -/
def Obligations.UnassignedOpcodesAreNoCommand : Prop :=
  (∀ (b : Byte) (rest : List Byte), Cmd.dec b = none → decode (b :: rest) = .error (.unassignedOpcode b)) ∧
  (∀ (b : Byte) (rest : List Byte), b ≠ 0x00#8 → decode (0x0E#8 :: b :: rest) = .error (.padNotZero b))

/-! ## Commands that only write -/

/-- R73, R90: SetLed, once the transport answers, has written `[0x01, r, g, b]` in one transaction; `Ok(())` or
`IoError`; nothing else changes but CUR, TXLEN and the frame's bytes of TXBUF. -/
def Obligations.SetLedWritesItsFrame : Prop :=
  ∀ (r g b : Byte) (s : State) (a : Answer) (rest : List Answer), s.answers = a :: rest →
    exec (.setLed r g b) s = .next
      { s with
        cur := .setLed
        txlen := 4#3
        txbuf := { s.txbuf with b0 := 0x01#8, b1 := r, b2 := g, b3 := b }
        phase := .idle
        op := none
        busOpening := false
        answers := rest
        trace := s.trace ++ [.write [0x01#8, r, g, b] a.isOk]
        results := s.results ++ [writeResult a] }

/-- R75, R76, R78, R79, R84, R85, R90: each motor command, once the transport answers, has written its opcode and the
magnitude byte in one transaction; `Ok(())` or `IoError`; nothing else changes but CUR, TXLEN and TXBUF. -/
def Obligations.MotorCommandsWriteTheirFrames : Prop :=
  ∀ (m : Byte) (s : State) (a : Answer) (rest : List Answer), s.answers = a :: rest →
    exec (.setMotorAForward m) s =
      .next (afterReq2 .setMotorAForward 0x08#8 m a rest (writeResult a) s) ∧
    exec (.setMotorAReverse m) s =
      .next (afterReq2 .setMotorAReverse 0x09#8 m a rest (writeResult a) s) ∧
    exec (.setMotorBForward m) s =
      .next (afterReq2 .setMotorBForward 0x0B#8 m a rest (writeResult a) s) ∧
    exec (.setMotorBReverse m) s =
      .next (afterReq2 .setMotorBReverse 0x0C#8 m a rest (writeResult a) s) ∧
    exec (.setMotorsForward m) s =
      .next (afterReq2 .setMotorsForward 0x11#8 m a rest (writeResult a) s) ∧
    exec (.setMotorsReverse m) s =
      .next (afterReq2 .setMotorsReverse 0x12#8 m a rest (writeResult a) s)

/-- R81, R118: AllOff, outside a teardown, has written `[0x0E, 0x00]`; a failed write is surfaced and READY stays. What
tells a teardown is `op`, the model's own (notes/assumptions/9.md); that AllOff run outside any operation ends as in STOP
is the model's too (notes/assumptions/10.md). -/
def Obligations.AllOffWritesItsFrame : Prop :=
  ∀ (s : State) (a : Answer) (rest : List Answer), s.op ≠ some .closeCodec → s.answers = a :: rest →
    exec .allOff s = .next (afterReq2 .allOff 0x0E#8 0x00#8 a rest (writeResult a) s)

/-- R90, R224: while the transport has not answered, a command that only writes stands in PHASE WRITING with its frame
in TXBUF, no event (the event comes with the answer, notes/assumptions/18.md), and no result. -/
def Obligations.WritesWaitForTheTransport : Prop :=
  ∀ (i : Instr) (s : State), i.cmd.isQuery = false → s.answers = [] →
    ∃ t, exec i s = .next t ∧ t.txFrame = encode i ∧
      t = { s with cur := i.cmd, txlen := t.txlen, txbuf := t.txbuf, phase := .writing }

/-! ## Commands that query -/

/-- R82, R83, R92, R140, R141, R142: a fault query whose reads fail the echo check in up to two cycles and then pass
it answers, in that cycle and with no further one, whether payload byte 0 is not 0x00. -/
def Obligations.FaultQueriesAnswerTheFlag : Prop :=
  ∀ (s : State) (bad : List (Frame × Frame)) (ack f : Frame) (rest : List Answer),
    bad.length ≤ 2 → s.answers = cycleAnswers bad ++ .ok ack :: .ok f :: rest →
    (AllMismatch .getDriveFaultFlagA bad → f.b0 = 0x0F#8 →
      exec .getDriveFaultFlagA s = .next (afterExchange .getDriveFaultFlagA 0x0F#8 (bad.length + 1) f
        (cycleEvents .getDriveFaultFlagA bad ++ [.write [0x0F#8] true, .read (some f)]) rest
        (.okBool (decide (f.b1 ≠ 0x00#8))) s)) ∧
    (AllMismatch .getDriveFaultFlagB bad → f.b0 = 0x10#8 →
      exec .getDriveFaultFlagB s = .next (afterExchange .getDriveFaultFlagB 0x10#8 (bad.length + 1) f
        (cycleEvents .getDriveFaultFlagB bad ++ [.write [0x10#8] true, .read (some f)]) rest
        (.okBool (decide (f.b1 ≠ 0x00#8))) s))

/-- R86, R92, R143 to R145: the battery query answers `raw * 11 / 310` volts, raw being payload bytes 0 and 1, high byte
first, of the first frame that passes the echo check. -/
def Obligations.BatteryQueryAnswersTheVoltage : Prop :=
  ∀ (s : State) (bad : List (Frame × Frame)) (ack f : Frame) (rest : List Answer),
    bad.length ≤ 2 → s.answers = cycleAnswers bad ++ .ok ack :: .ok f :: rest →
    AllMismatch .getBatteryVoltage bad → f.b0 = 0x15#8 →
    exec .getBatteryVoltage s = .next (afterExchange .getBatteryVoltage 0x15#8 (bad.length + 1) f
      (cycleEvents .getBatteryVoltage bad ++ [.write [0x15#8] true, .read (some f)]) rest
      (.okVolts (((256 * f.b1.toNat + f.b2.toNat : Nat) : Rat) * 11 / 310)) s)

/-- R87, R170, R171: the handshake: a valid frame with identifier 0x15 sets READY; any other identifier ends with
UnexpectedDevice, in the same cycle, and READY keeps its value. That GetId run outside OPEN makes this check and sets
READY too is the model's (notes/assumptions/10.md, DESIGN CHOICE). -/
def Obligations.HandshakeChecksTheIdentifier : Prop :=
  ∀ (s : State) (bad : List (Frame × Frame)) (ack f : Frame) (rest : List Answer),
    bad.length ≤ 2 → s.answers = cycleAnswers bad ++ .ok ack :: .ok f :: rest →
    AllMismatch .getId bad → f.b0 = 0x99#8 →
    (f.b1 = 0x15#8 →
      exec .getId s = .next (afterExchange .getId 0x99#8 (bad.length + 1) f
        (cycleEvents .getId bad ++ [.write [0x99#8] true, .read (some f)]) rest .ok { s with ready := true })) ∧
    (f.b1 ≠ 0x15#8 →
      exec .getId s = .next (afterExchange .getId 0x99#8 (bad.length + 1) f
        (cycleEvents .getId bad ++ [.write [0x99#8] true, .read (some f)]) rest (.err .unexpectedDevice) s))

/-- R74, R77, R80, R92, R147: the queries that no host operation issues run as the primitive `exchange` and return the
valid frame undecoded. That the frame is the result is the model's (notes/assumptions/6.md). -/
def Obligations.UnissuedQueriesReturnTheFrame : Prop :=
  ∀ (s : State) (bad : List (Frame × Frame)) (ack f : Frame) (rest : List Answer),
    bad.length ≤ 2 → s.answers = cycleAnswers bad ++ .ok ack :: .ok f :: rest →
    (AllMismatch .getLed bad → f.b0 = 0x02#8 →
      exec .getLed s = .next (afterExchange .getLed 0x02#8 (bad.length + 1) f
        (cycleEvents .getLed bad ++ [.write [0x02#8] true, .read (some f)]) rest (.okFrame f) s)) ∧
    (AllMismatch .getMotorA bad → f.b0 = 0x0A#8 →
      exec .getMotorA s = .next (afterExchange .getMotorA 0x0A#8 (bad.length + 1) f
        (cycleEvents .getMotorA bad ++ [.write [0x0A#8] true, .read (some f)]) rest (.okFrame f) s)) ∧
    (AllMismatch .getMotorB bad → f.b0 = 0x0D#8 →
      exec .getMotorB s = .next (afterExchange .getMotorB 0x0D#8 (bad.length + 1) f
        (cycleEvents .getMotorB bad ++ [.write [0x0D#8] true, .read (some f)]) rest (.okFrame f) s))

/-- R94, R194: a transport that never echoes correctly makes every query fail with EchoMismatch, naming its command,
after exactly three write/read cycles. RXBUF then holds the last invalid frame (R18, R96; notes/assumptions/8.md). -/
def Obligations.EchoMismatchAfterThreeCycles : Prop :=
  ∀ (i : Instr) (s : State) (bad : List (Frame × Frame)) (rest : List Answer),
    i.cmd.isQuery = true → bad.length = 3 → AllMismatch i.cmd bad → s.answers = cycleAnswers bad ++ rest →
    exec i s = .next (afterExchange i.cmd i.cmd.enc 3 (lastRead bad s.rxbuf) (cycleEvents i.cmd bad) rest
      (.err (.echoMismatch i.cmd)) s)

/-- R95, R193: a failed write in any cycle ends the exchange at once with IoError; no read follows it, and the cycles
left are not made. -/
def Obligations.FailedWriteEndsTheExchange : Prop :=
  ∀ (i : Instr) (s : State) (bad : List (Frame × Frame)) (rest : List Answer),
    i.cmd.isQuery = true → bad.length ≤ 2 → AllMismatch i.cmd bad →
    s.answers = cycleAnswers bad ++ .fail :: rest →
    exec i s = .next (afterExchange i.cmd i.cmd.enc (bad.length + 1) (lastRead bad s.rxbuf)
      (cycleEvents i.cmd bad ++ [.write [i.cmd.enc] false]) rest (.err .ioError) s)

/-- R95, R193, R18: a failed read in any cycle ends the exchange at once with IoError. RXBUF is then a free value (R18
leaves it unspecified): the one numbered by `draws`, whatever it is. -/
def Obligations.FailedReadEndsTheExchange : Prop :=
  ∀ (i : Instr) (s : State) (bad : List (Frame × Frame)) (ack : Frame) (rest : List Answer),
    i.cmd.isQuery = true → bad.length ≤ 2 → AllMismatch i.cmd bad →
    s.answers = cycleAnswers bad ++ .ok ack :: .fail :: rest →
    exec i s = .next (afterExchange i.cmd i.cmd.enc (bad.length + 1) (Config.rxAfterFailedRead s.draws)
      (cycleEvents i.cmd bad ++ [.write [i.cmd.enc] true, .read none]) rest (.err .ioError)
      { s with draws := s.draws + 1 })

/-- R224: when the transport's answers run out in a cycle, the query stands in PHASE WRITING or READING, with no
result, and its events are those of the transactions that were answered (notes/assumptions/18.md). -/
def Obligations.QueriesWaitForTheTransport : Prop :=
  ∀ (i : Instr) (s : State) (bad : List (Frame × Frame)),
    i.cmd.isQuery = true → bad.length ≤ 2 → AllMismatch i.cmd bad →
    (s.answers = cycleAnswers bad →
      exec i s = .next
        { s with
          cur := i.cmd
          txlen := 1#3
          txbuf := { s.txbuf with b0 := i.cmd.enc }
          attempt := BitVec.ofNat 2 (bad.length + 1)
          rxbuf := lastRead bad s.rxbuf
          phase := .writing
          answers := []
          trace := s.trace ++ cycleEvents i.cmd bad }) ∧
    (∀ ack : Frame, s.answers = cycleAnswers bad ++ [.ok ack] →
      exec i s = .next
        { s with
          cur := i.cmd
          txlen := 1#3
          txbuf := { s.txbuf with b0 := i.cmd.enc }
          attempt := BitVec.ofNat 2 (bad.length + 1)
          rxbuf := lastRead bad s.rxbuf
          phase := .reading
          answers := []
          trace := s.trace ++ cycleEvents i.cmd bad ++ [.write [i.cmd.enc] true] })

/-- R99, the counting laws: when an exchange has ended, its events are 0 to 2 whole cycles whose frames fail the echo
check and then one of four endings (a valid frame; a failed write; a failed read; nothing, after a third such cycle), and
the ending decides the result. -/
def Obligations.ExchangeCountingLaws : Prop :=
  ∀ (i : Instr) (s t : State), i.cmd.isQuery = true → exec i s = .next t → t.phase = .idle →
    ∃ (bad : List (Frame × Frame)) (ending : List Event) (r : Result),
      AllMismatch i.cmd bad ∧ t.trace = s.trace ++ cycleEvents i.cmd bad ++ ending ∧ t.results = s.results ++ [r] ∧
      ((bad.length ≤ 2 ∧ (∃ f : Frame, f.b0 = i.cmd.enc ∧ t.rxbuf = f ∧
          ending = [.write [i.cmd.enc] true, .read (some f)]) ∧
          r ≠ .err .ioError ∧ ∀ c, r ≠ .err (.echoMismatch c)) ∨
        (bad.length ≤ 2 ∧ ending = [.write [i.cmd.enc] false] ∧ r = .err .ioError) ∨
        (bad.length ≤ 2 ∧ ending = [.write [i.cmd.enc] true, .read none] ∧ r = .err .ioError) ∨
        (bad.length = 3 ∧ ending = [] ∧ r = .err (.echoMismatch i.cmd)))

/-! ## The primitives and the validator -/

/-- R91: more than five extra bytes are refused with FrameTooLong before anything else, with no state written and no
bus transaction; no command's payload is longer than three bytes, so no operation meets it. -/
def Obligations.OverlongFramesAreRefused : Prop :=
  (∀ (c : Cmd) (extra : List Byte) (done : Bool → State → State) (s : State), Config.N < 1 + extra.length →
    writeCommand c extra done s = afterResult (.refused .frameTooLong) s) ∧
  (∀ i : Instr, i.extra.length ≤ 3)

/-- R93: the echo check is the equality of byte 0 with the opcode, all 8 bits; no other byte plays a part, and a byte 0
that is another command's opcode fails as one that is no command's does. With the rule's worked examples. -/
def Obligations.EchoCheckLooksAtByteZero : Prop :=
  (∀ (f : Frame) (c : Cmd), echoOk f c = true ↔ f.b0 = c.enc) ∧
  (∀ (f g : Frame) (c : Cmd), f.b0 = g.b0 → echoOk f c = echoOk g c) ∧
  (∀ (f : Frame) (c d : Cmd), f.b0 = d.enc → c ≠ d → echoOk f c = false) ∧
  (∀ (f : Frame) (c : Cmd), Cmd.dec f.b0 = none → echoOk f c = false) ∧
  echoOk ⟨0x15#8, 0x03#8, 0xFF#8, 0#8, 0#8, 0#8⟩ .getBatteryVoltage = true ∧
  echoOk ⟨0x0F#8, 0x03#8, 0xFF#8, 0#8, 0#8, 0#8⟩ .getBatteryVoltage = false ∧
  echoOk ⟨0x99#8, 0x15#8, 0#8, 0#8, 0#8, 0#8⟩ .getBatteryVoltage = false

/-- R142: a fault flag is true exactly when frame byte 1 is not 0x00; no other byte is looked at. -/
def Obligations.FaultFlagIsPayloadByteZero : Prop :=
  (∀ f : Frame, faultOf f = true ↔ f.b1 ≠ 0x00#8) ∧
  (∀ f g : Frame, f.b1 = g.b1 → faultOf f = faultOf g)

/-! ## The power operand -/

/-- R110: the clamp on each kind of power value, its range, that it is idempotent, and that a negative zero is
`Finite(0)`. The clamp of an infinity is the spec's own reading (R110, "[derived"). -/
def Obligations.ClampLandsInRange : Prop :=
  (∀ q : Rat, clamp (.finite q) = some (if q < -1 then -1 else if 1 < q then 1 else q)) ∧
  clamp .posInf = some 1 ∧ clamp .negInf = some (-1) ∧ clamp .nan = none ∧
  (∀ (p : PowerValue) (q : Rat), clamp p = some q → -1 ≤ q ∧ q ≤ 1 ∧ clamp (.finite q) = some q) ∧
  (Power.binary32 0x80000000#32).value = .finite 0

/-- R111: the magnitude byte is `floor(abs(clamp(p)) * 255)`, truncating; the product is exact by the spec's decision D4,
and the corner cases are those that the rule marks as derived from the formula. -/
def Obligations.MagnitudeByteTruncates : Prop :=
  (∀ (p : PowerValue) (q : Rat), clamp p = some q →
    ∃ m : Byte, magnitudeByte p = some m ∧ (m.toNat : ℤ) = ⌊|q| * 255⌋) ∧
  magnitudeByte (.finite 1) = some 255#8 ∧ magnitudeByte (.finite 0) = some 0#8 ∧
  magnitudeByte (.finite (1 / 2)) = some 0x7F#8 ∧
  (∀ q : Rat, magnitudeByte (.finite (-q)) = magnitudeByte (.finite q)) ∧
  (∀ q : Rat, magnitudeByte (.finite q) = some 255#8 ↔ 1 ≤ |q|) ∧
  (∀ q : Rat, |q| < 1 / 255 → magnitudeByte (.finite q) = some 0#8) ∧
  (∀ k : Nat, k ≤ 255 → magnitudeByte (.finite ((k : Rat) / 255)) = some (BitVec.ofNat 8 k)) ∧
  (∀ (p q : Rat) (m n : Byte), |p| ≤ |q| → magnitudeByte (.finite p) = some m → magnitudeByte (.finite q) = some n →
    m.toNat ≤ n.toNat)

/-- R112, R113: the Forward command is chosen exactly when the clamped power is at least 0, which is when the power is;
zero is forward, and a small negative power is Reverse with magnitude 0. -/
def Obligations.DirectionIsTheSign : Prop :=
  (∀ q : Rat, forward (.finite q) = some (decide (0 ≤ q))) ∧
  forward .posInf = some true ∧ forward .negInf = some false ∧ forward .nan = none ∧
  (∀ (fwd rev : Byte → Instr) (q : Rat) (m : Byte), magnitudeByte (.finite q) = some m →
    marshalPower fwd rev (.finite q) = some (if 0 ≤ q then fwd m else rev m)) ∧
  (∀ (fwd rev : Byte → Instr) (q : Rat), -1 / 255 < q → q < 0 → marshalPower fwd rev (.finite q) = some (rev 0#8)) ∧
  (∀ fwd rev : Byte → Instr, marshalPower fwd rev .posInf = some (fwd 255#8)) ∧
  (∀ fwd rev : Byte → Instr, marshalPower fwd rev .negInf = some (rev 255#8)) ∧
  (∀ fwd rev : Byte → Instr, marshalPower fwd rev .nan = none)

/-- R120: the value of a binary32 pattern, for every sign, exponent and fraction. -/
def Obligations.DefaultPowerFormatIsBinary32 : Prop :=
  ∀ w : BitVec 32,
    let sign : Rat := if w.getLsbD 31 then -1 else 1
    let e := (w.extractLsb' 23 8).toNat
    let f := (w.extractLsb' 0 23).toNat
    (e = 255 → f ≠ 0 → binary32Value w = .nan) ∧
    (e = 255 → f = 0 → binary32Value w = if w.getLsbD 31 then .negInf else .posInf) ∧
    (e = 0 → binary32Value w = .finite (sign * f * (2 : ℚ) ^ (-149 : ℤ))) ∧
    (e ≠ 0 → e ≠ 255 → binary32Value w = .finite (sign * (2 ^ 23 + f) * (2 : ℚ) ^ ((e : ℤ) - 150)))

/-! ## The battery voltage -/

/-- R60, R144: the raw reading is frame bytes 1 and 2, the high byte first; every 16-bit value occurs, and the other
bytes are ignored. With the rule's worked example. -/
def Obligations.RawReadingIsBigEndian : Prop :=
  (∀ f : Frame, (rawOf f).toNat = 256 * f.b1.toNat + f.b2.toNat) ∧
  (∀ f g : Frame, f.b1 = g.b1 → f.b2 = g.b2 → rawOf f = rawOf g) ∧
  (∀ r : Half, ∃ f : Frame, rawOf f = r) ∧
  (∀ f : Frame, f.b1 = 0x03#8 → f.b2 = 0xFF#8 → rawOf f = 1023#16)

/-- R145: the voltage is `raw / 1023 * 36.3 + 0`, exactly. By inferences that the spec marks as derived it is
`raw * 11 / 310` (R145), never negative and strictly growing with the reading (R148 (c)); that it is not clamped above
1023 is the spec's decision D18. -/
def Obligations.VoltageIsElevenOverThreeHundredTen : Prop :=
  (∀ r : Half, voltsOf r = (r.toNat : Rat) / 1023 * (363 / 10) + 0) ∧
  (∀ r : Half, voltsOf r = (r.toNat : Rat) * 11 / 310) ∧
  (∀ r : Half, 0 ≤ voltsOf r) ∧
  (∀ r u : Half, r < u → voltsOf r < voltsOf u) ∧
  voltsOf 1023#16 = 363 / 10 ∧ voltsOf 512#16 = 2816 / 155 ∧ voltsOf 0#16 = 0 ∧
  voltsOf 1024#16 = 5632 / 155 ∧ voltsOf 65535#16 = 144177 / 62

/-- R146: in the default format every voltage is a finite, non-negative binary32 value nearest to the exact rational
among all finite binary32 values, and where another value is as near, its own last bit is 0. -/
def Obligations.VoltageFormatRoundsToNearestEven : Prop :=
  (∀ r : Half, (toBinary32 (voltsOf r)).getLsbD 31 = false) ∧
  (∀ r : Half, ∃ v : Rat, binary32Value (toBinary32 (voltsOf r)) = .finite v ∧ 0 ≤ v ∧
    ∀ (w : BitVec 32) (x : Rat), binary32Value w = .finite x →
      |v - voltsOf r| ≤ |x - voltsOf r| ∧
      (|x - voltsOf r| = |v - voltsOf r| → x = v ∨ (toBinary32 (voltsOf r)).getLsbD 0 = false)) ∧
  toBinary32 (voltsOf 1023#16) = 0x42113333#32

/-! ## The host operations -/

/-- R176: each of the eight operations, presented with READY = 0, ends with `Refused(NotReady)`: no state is written
and no transaction made, whatever its operands. OPEN and CLOSE are never refused so. -/
def Obligations.OperationsNeedReady : Prop :=
  (∀ (q : Request) (s : State), q.op ≠ .openCodec → q.op ≠ .closeCodec → s.ready = false →
    accept q s = .next (afterResult (.refused .notReady) s)) ∧
  (∀ (q : Request) (s t : State), q.op = .openCodec ∨ q.op = .closeCodec → accept q s = .next t →
    t.results ≠ s.results ++ [.refused .notReady])

/-- R177: OPEN when ready ends with `Refused(AlreadyOpen)`: no bus transaction, and READY stays 1. -/
def Obligations.OpenWhenReadyIsRefused : Prop :=
  ∀ (q : Request) (s : State), q.op = .openCodec → s.ready = true →
    accept q s = .next (afterResult (.refused .alreadyOpen) s)

/-- R191: TransportUnavailable is the failure of `BusOpen` in OPEN, answered in the step that accepts OPEN or in a later
one: no frame has been written, READY stays 0, it is not retried, and no other operation raises it: a step that delivers
it accepts OPEN, or takes up the answer to the `BusOpen` of the OPEN in progress. What says so of the latter, `op` and
`busOpening`, is the model's own (notes/assumptions/9.md). -/
def Obligations.FailedBusOpenIsTransportUnavailable : Prop :=
  (∀ (q : Request) (s : State) (rest : List Answer), q.op = .openCodec → s.ready = false → s.answers = .fail :: rest →
    accept q s = .next (afterResult (.err .transportUnavailable)
      { s with answers := rest, trace := s.trace ++ [.busOpen false] })) ∧
  (∀ (q : Request) (s t : State), accept q s = .next t →
    t.results = s.results ++ [.err .transportUnavailable] → q.op = .openCodec) ∧
  (∀ (s : State) (rest : List Answer), s.phase = .writing → s.busOpening = true → s.answers = .fail :: rest →
    step s = .next (afterResult (.err .transportUnavailable)
      { s with answers := rest, trace := s.trace ++ [.busOpen false] })) ∧
  (∀ s t : State, Inv s → step s = .next t → t.results = s.results ++ [.err .transportUnavailable] →
    s.ready = false ∧ t.ready = false ∧ t.trace = s.trace ++ [.busOpen false] ∧
      ((s.phase = .idle ∧ s.slot = none ∧ ∃ q rest, s.requests = q :: rest ∧ q.op = .openCodec) ∨
        (s.op = some .openCodec ∧ s.busOpening = true)))

/-- R170, R222: OPEN in the uninitialized state opens the bus and then runs the handshake command, in that order; while
`BusOpen` has no answer it stands in PHASE WRITING. -/
def Obligations.OpenRunsTheHandshake : Prop :=
  (∀ (q : Request) (s : State) (ack : Frame) (rest : List Answer),
    q.op = .openCodec → s.ready = false → s.answers = .ok ack :: rest →
    accept q s = exec .getId
      { s with
        op := some .openCodec
        answers := rest
        trace := s.trace ++ [.busOpen true]
        phase := .idle
        busOpening := false }) ∧
  (∀ (q : Request) (s : State), q.op = .openCodec → s.ready = false → s.answers = [] →
    accept q s = .next { s with op := some .openCodec, phase := .writing, busOpening := true })

/-- R173, R174, R175: CLOSE when ready attempts exactly one write, `[0x0E, 0x00]`, returns `Ok(())` whatever the
transport answers, records a failure in LAST_CLOSE_FAILED and clears READY; when not ready it only returns `Ok(())`. -/
def Obligations.CloseAttemptsOneAllOff : Prop :=
  (∀ (q : Request) (s : State) (a : Answer) (rest : List Answer),
    q.op = .closeCodec → s.ready = true → s.answers = a :: rest →
    accept q s = .next (afterReq2 .allOff 0x0E#8 0x00#8 a rest .ok
      { s with lastCloseFailed := !a.isOk, ready := false })) ∧
  (∀ (q : Request) (s : State), q.op = .closeCodec → s.ready = false → accept q s = .next (afterResult .ok s))

/-- R64, R114, R118, R140, R141, R143: an operation that needs no marshalling, presented with READY = 1, issues its
command with its operands; the other operands are ignored (R11). -/
def Obligations.PlainOperationsIssueTheirCommand : Prop :=
  ∀ (q : Request) (s : State), s.ready = true →
    (q.op = .setLed → accept q s = exec (.setLed q.r q.g q.b) { s with op := some .setLed }) ∧
    (q.op = .stop → accept q s = exec .allOff { s with op := some .stop }) ∧
    (q.op = .getDriveFaultA → accept q s = exec .getDriveFaultFlagA { s with op := some .getDriveFaultA }) ∧
    (q.op = .getDriveFaultB → accept q s = exec .getDriveFaultFlagB { s with op := some .getDriveFaultB }) ∧
    (q.op = .getBatteryVoltage → accept q s = exec .getBatteryVoltage { s with op := some .getBatteryVoltage })

/-- R115, R116, R117, R119: a motor operation with READY = 1 issues the Forward or the Reverse command of its pair with
the magnitude byte of its power, and is refused with BadOperand, changing nothing, when its power is NaN. R121 (d), (e):
once the transport answers, it has made exactly one write, of 2 bytes, and no read, and the opcode written is one of the
two of its pair, by whether its power is at least 0. R121 (f): no set operation reads or retries: a step that works on one
makes no event, or one write, with which the operation ends. Which of several held operations that is, is the model's
(notes/assumptions/17.md). -/
def Obligations.MotorOperationsMarshalTheirPower : Prop :=
  (∀ (q : Request) (s : State), s.ready = true →
    ((q.op = .setMotorA ∨ q.op = .setMotorB ∨ q.op = .setMotors) → q.power.value = .nan →
      accept q s = .next (afterResult (.refused .badOperand) s)) ∧
    (∀ (d : Bool) (m : Byte), forward q.power.value = some d → magnitudeByte q.power.value = some m →
      (q.op = .setMotorA → accept q s =
        exec (if d then .setMotorAForward m else .setMotorAReverse m) { s with op := some .setMotorA }) ∧
      (q.op = .setMotorB → accept q s =
        exec (if d then .setMotorBForward m else .setMotorBReverse m) { s with op := some .setMotorB }) ∧
      (q.op = .setMotors → accept q s =
        exec (if d then .setMotorsForward m else .setMotorsReverse m) { s with op := some .setMotors })) ∧
    (∀ (fwd rev : Cmd) (a : Answer) (rest : List Answer), q.op.motorPair = some (fwd, rev) → q.power.value ≠ .nan →
      s.answers = a :: rest →
      ∃ (c : Cmd) (m : Byte), c = (if q.power.value.isNonneg then fwd else rev) ∧
        magnitudeByte q.power.value = some m ∧ accept q s = .next (afterReq2 c c.enc m a rest (writeResult a) s))) ∧
  (∀ (s t : State) (o : OpName) (es : List Event), Inv s → HostDriven s → o.isSet = true → WorksOn s o →
    step s = .next t → t.trace = s.trace ++ es →
    es = [] ∨ ∃ (bytes : List Byte) (ok : Bool), es = [.write bytes ok] ∧ t.phase = .idle)

/-- R190: STATUS of every result, and ERR_CMD, which EchoMismatch alone carries. The codes are the spec's decision D3. -/
def Obligations.StatusCodesAreThePrintedOnes : Prop :=
  (Result.ok.status = 0#4 ∧ (∀ b, (Result.okBool b).status = 0#4) ∧ (∀ v, (Result.okVolts v).status = 0#4) ∧
    (Result.err .transportUnavailable).status = 1#4 ∧ (Result.err .unexpectedDevice).status = 2#4 ∧
    (Result.err .ioError).status = 3#4 ∧ (∀ c, (Result.err (.echoMismatch c)).status = 4#4) ∧
    (Result.refused .notReady).status = 8#4 ∧ (Result.refused .alreadyOpen).status = 9#4 ∧
    (Result.refused .badOperand).status = 10#4 ∧ (Result.refused .frameTooLong).status = 11#4) ∧
  (∀ c : Cmd, (Result.err (.echoMismatch c)).errCmd = some c.idx) ∧
  (∀ r : Result, (∀ c : Cmd, r ≠ .err (.echoMismatch c)) → r.errCmd = none) ∧
  (∀ r : Result, r.status.getLsbD 3 = true ↔ ∃ q, r = .refused q)

/-! ## Reset -/

/-- R220, R27: after reset READY, ATTEMPT and LAST_CLOSE_FAILED are 0, PHASE is IDLE, there is no result, and the codec
waits for the first operation. -/
def Obligations.ResetIsUninitialized : Prop :=
  State.reset.ready = false ∧ State.reset.phase = .idle ∧ State.reset.attempt = 0#2 ∧
  State.reset.lastCloseFailed = false ∧ State.reset.lastResult = none ∧ step State.reset = .next State.reset

/-- R221: a reset at any time performs no bus transaction, and leaves the uninitialized state with nothing outstanding.
That the abandoned transaction leaves no event is the model's (notes/assumptions/18.md, DESIGN CHOICE). -/
def Obligations.ResetSendsNothing : Prop :=
  ∀ s : State, (s.receive .reset).trace = s.trace ∧
    (s.receive .reset).ready = false ∧ (s.receive .reset).phase = .idle ∧ (s.receive .reset).busOpening = false ∧
    (s.receive .reset).op = none ∧ (s.receive .reset).attempt = 0#2 ∧ (s.receive .reset).lastCloseFailed = false ∧
    (s.receive .reset).lastResult = none

/-! ## The whole machine -/

/-- The invariant holds at reset. This rests on the values that the model chose for CUR, TXBUF and TXLEN
(notes/assumptions/1.md, DESIGN CHOICE). -/
def Obligations.InvHoldsAtReset : Prop :=
  Inv State.reset

/-- R14, R16, R17, R64, R98, R176: every step keeps the invariant. -/
def Obligations.EveryStepKeepsInv : Prop :=
  ∀ s t : State, Inv s → step s = .next t → Inv t

/-- Every input keeps the invariant, and the property that nothing was handed to the primitives past the port. For a
reset this rests on the values of notes/assumptions/1.md (DESIGN CHOICE). -/
def Obligations.EveryInputKeepsInv : Prop :=
  ∀ (s : State) (i : Input), (Inv s → Inv (s.receive i)) ∧ (HostDriven s → HostDriven (s.receive i))

/-- Whatever the host presents and the transport answers, and whenever the codec is reset, every state the codec comes to
obeys the invariant, and nothing in it came past the port (R11, R231). That takes in every state of a
run (R230), and those after a later reset (notes/assumptions/19.md); it rests on the values of notes/assumptions/1.md. -/
def Obligations.ReachableStatesAreLawful : Prop :=
  ∀ s : State, Reachable s → Inv s ∧ HostDriven s

/-- R230: a run with nothing in progress and nothing held has ended well exactly when every OPEN of it that succeeded was
followed by a CLOSE; each of its operations then has its one result (R12). That the `n`-th operation presented has the
`n`-th result, as several held are accepted in order, is the model's (notes/assumptions/17.md, DESIGN CHOICE). -/
def Obligations.ARunEndsWellWhenEveryOpenIsClosed : Prop :=
  ∀ (qs : List Request) (s : State), HostRun qs s → s.phase = .idle → s.requests = [] →
    s.results.length = qs.length ∧ (EndedWell qs s ↔ ∀ n : Nat, SuccessfulOpenAt qs s n → ClosedAfter qs n)

/-- R230, R224: a run stops, that is no step moves it (notes/assumptions/4.md), exactly when it has ended well, or is in
IDLE with nothing held and READY = 1, the teardown duty unmet, or is stuck; and a run that has ended well has its duty
met and is not stuck. -/
def Obligations.ARunStopsInOneOfThreeWays : Prop :=
  ∀ (qs : List Request) (s : State), HostRun qs s →
    (step s = .next s ↔ EndedWell qs s ∨ (TeardownDutyUnmet qs s ∧ s.phase = .idle ∧ s.requests = []) ∨ Stuck s) ∧
    (EndedWell qs s → ¬ TeardownDutyUnmet qs s ∧ ¬ Stuck s)

/-- R11: a step never hands a command to the primitives past the port: once driven by the host, always so. -/
def Obligations.EveryStepKeepsHostDriven : Prop :=
  ∀ s t : State, HostDriven s → step s = .next t → HostDriven t

/-- R40, R43, R97, R229: each answered transaction is one event, in order, with its answer's `ok`; at most seven in one
operation (`BusOpen` and three cycles); nothing is dropped, merged or invented. The answers are the transport's, as the
model lists them (notes/assumptions/2.md); that the event comes with the answer is the model's
(notes/assumptions/18.md). -/
def Obligations.OneEventPerAnswer : Prop :=
  ∀ s t : State, Inv s → step s = .next t →
    ∃ (used : List Answer) (es : List Event), s.answers = used ++ t.answers ∧ t.trace = s.trace ++ es ∧
      es.length ≤ 7 ∧
      List.Forall₂ (fun a e => match e with
        | .busOpen ok => ok = a.isOk
        | .write _ ok => ok = a.isOk
        | .read none => a = .fail
        | .read (some f) => a = .ok f) used es

/-- R13, R170, R173, R175: READY is set only by a handshake whose last frame is `99 15 ..`, ending with `Ok(())`, and
cleared only by a teardown whose one event is the write of `0E 00`, ending with `Ok(())`. -/
def Obligations.ReadyChangesOnlyInTheLifecycle : Prop :=
  ∀ s t : State, Inv s → step s = .next t →
    (s.ready = false → t.ready = true →
      t.rxbuf.b0 = 0x99#8 ∧ t.rxbuf.b1 = 0x15#8 ∧ t.results = s.results ++ [.ok] ∧
      ∃ es, t.trace = s.trace ++ es ++ [.read (some t.rxbuf)]) ∧
    (s.ready = true → t.ready = false →
      t.results = s.results ++ [.ok] ∧ ∃ ok, t.trace = s.trace ++ [.write [0x0E#8, 0x00#8] ok] ∧
        t.lastCloseFailed = !ok)

/-- R19: LAST_CLOSE_FAILED is written by a CLOSE that runs with READY = 1, and by nothing else. -/
def Obligations.OnlyTeardownWritesLastCloseFailed : Prop :=
  ∀ s t : State, Inv s → step s = .next t → t.lastCloseFailed ≠ s.lastCloseFailed →
    s.ready = true ∧ t.ready = false ∧ t.trace = s.trace ++ [.write [0x0E#8, 0x00#8] (!t.lastCloseFailed)]

/-- R176, R222, R172: before the handshake has succeeded, nothing the host presents makes the codec write anything on the
bus but the GetId frame `99`. Two of the spec's own decisions carry it: D8, that the operations are refused without bus
traffic, and D10, that no AllOff follows a failed handshake. -/
def Obligations.UninitializedCodecWritesOnlyGetId : Prop :=
  ∀ (s t : State) (es : List Event), Inv s → HostDriven s → s.ready = false → step s = .next t →
    t.trace = s.trace ++ es → ∀ (bytes : List Byte) (ok : Bool), Event.write bytes ok ∈ es → bytes = [0x99#8]

/-- R12, R14, R224: a step ends an operation with exactly one result, delivered in that step (notes/assumptions/13.md),
and in IDLE; or it delivers none and a transaction is outstanding with no answer; or nothing was to be done, and it
leaves the state (notes/assumptions/4.md). -/
def Obligations.ExactlyOneResultPerOperation : Prop :=
  ∀ s t : State, step s = .next t →
    (t.phase = .idle ∧ t.op = none ∧ ∃ r, t.results = s.results ++ [r]) ∨
    (t.results = s.results ∧ (Stuck t ∨ (t = s ∧ s.phase = .idle ∧ s.slot = none ∧ s.requests = [])))

/-- R198: an operation that ends with an error leaves READY as it was and the codec in IDLE. -/
def Obligations.ErrorsKeepReady : Prop :=
  ∀ (s t : State) (k : ErrorKind), step s = .next t → t.results = s.results ++ [.err k] →
    t.ready = s.ready ∧ t.phase = .idle ∧ t.op = none ∧ t.lastCloseFailed = s.lastCloseFailed

/-- R195: an operation that is refused leaves all state unchanged and produces no event. -/
def Obligations.RefusalsChangeNothing : Prop :=
  ∀ (q : Request) (s t : State) (r : RefuseReason), accept q s = .next t → t.results = s.results ++ [.refused r] →
    t = afterResult (.refused r) s

/-- R21: of the registers only READY bears on a later operation: two idle codecs that agree on it, and on what is
presented and answered, deliver the same results and the same events and agree again. -/
def Obligations.OnlyReadyMattersBetweenOperations : Prop :=
  ∀ s t s' t' : State, s.phase = .idle → s'.phase = .idle → s.slot = none → s'.slot = none →
    s.ready = s'.ready → s.requests = s'.requests → s.answers = s'.answers →
    step s = .next t → step s' = .next t' →
    ∃ (rs : List Result) (es : List Event),
      t.results = s.results ++ rs ∧ t'.results = s'.results ++ rs ∧
      t.trace = s.trace ++ es ∧ t'.trace = s'.trace ++ es ∧
      t.ready = t'.ready ∧ t.phase = t'.phase ∧ t.requests = t'.requests ∧ t.answers = t'.answers

/-- R40, R224: when the answers come makes no difference. A step given its first answers only, and another step once
the rest have come, end where one step given all of them ends. (That a step takes all the answers there are is the
model's, notes/assumptions/2.md; this says that it does not matter.) -/
def Obligations.LateAnswersMakeNoDifference : Prop :=
  ∀ (s t : State) (early late : List Answer), Inv s → step { s with answers := early } = .next t →
    (t.phase = .idle → step { s with answers := early ++ late } = .next { t with answers := t.answers ++ late }) ∧
    (t.phase ≠ .idle → t.answers = [] ∧
      step { s with answers := early ++ late } = step { t with answers := late })
end

