-- ==== Sys2Proof/Laws/State.lean ====
section
/-! SUPPORT. What each shared update of the state leaves in each field, so that no later proof unfolds a record
update. -/

namespace Sys2Proof

/-! ## The transmit buffer's bytes -/

@[simp] theorem Frame.overwrite_one (f : Frame) (a : Byte) : f.overwrite [a] = { f with b0 := a } := rfl

@[simp] theorem Frame.overwrite_two (f : Frame) (a b : Byte) : f.overwrite [a, b] = { f with b0 := a, b1 := b } := rfl

@[simp] theorem Frame.overwrite_four (f : Frame) (a b c d : Byte) :
    f.overwrite [a, b, c, d] = { f with b0 := a, b1 := b, b2 := c, b3 := d } := rfl

theorem Frame.overwrite_head (f : Frame) (a : Byte) (extra : List Byte) : (f.overwrite (a :: extra)).b0 = a := rfl

@[simp] theorem frameOfBytes_toList (f : Frame) : frameOfBytes f.toList = f := rfl

namespace Machine

/-! ## `finish`, field by field -/

@[simp] theorem finish_ready (r : Result) (s : State) : (finish r s).ready = s.ready := rfl
@[simp] theorem finish_phase (r : Result) (s : State) : (finish r s).phase = .idle := rfl
@[simp] theorem finish_cur (r : Result) (s : State) : (finish r s).cur = s.cur := rfl
@[simp] theorem finish_attempt (r : Result) (s : State) : (finish r s).attempt = s.attempt := rfl
@[simp] theorem finish_txbuf (r : Result) (s : State) : (finish r s).txbuf = s.txbuf := rfl
@[simp] theorem finish_txlen (r : Result) (s : State) : (finish r s).txlen = s.txlen := rfl
@[simp] theorem finish_rxbuf (r : Result) (s : State) : (finish r s).rxbuf = s.rxbuf := rfl
@[simp] theorem finish_lastCloseFailed (r : Result) (s : State) : (finish r s).lastCloseFailed = s.lastCloseFailed := rfl
@[simp] theorem finish_results (r : Result) (s : State) : (finish r s).results = s.results ++ [r] := rfl
@[simp] theorem finish_trace (r : Result) (s : State) : (finish r s).trace = s.trace := rfl
@[simp] theorem finish_op (r : Result) (s : State) : (finish r s).op = none := rfl
@[simp] theorem finish_busOpening (r : Result) (s : State) : (finish r s).busOpening = false := rfl
@[simp] theorem finish_requests (r : Result) (s : State) : (finish r s).requests = s.requests := rfl
@[simp] theorem finish_answers (r : Result) (s : State) : (finish r s).answers = s.answers := rfl
@[simp] theorem finish_slot (r : Result) (s : State) : (finish r s).slot = s.slot := rfl
@[simp] theorem finish_draws (r : Result) (s : State) : (finish r s).draws = s.draws := rfl

/-- An error ends the operation as `finish` does (R198). -/
theorem raise_eq (e : ErrorKind) (s : State) : raise e s = finish (.err e) s := rfl

/-- A refusal ends the operation as `finish` does (R195). -/
theorem refuse_eq (q : RefuseReason) (s : State) : refuse q s = finish (.refused q) s := rfl

/-! ## `loadFrame`, field by field -/

section loadFrame
variable (s : State) (c : Cmd) (extra : List Byte)

@[simp] theorem loadFrame_ready : (s.loadFrame c extra).ready = s.ready := rfl
@[simp] theorem loadFrame_phase : (s.loadFrame c extra).phase = s.phase := rfl
@[simp] theorem loadFrame_cur : (s.loadFrame c extra).cur = c := rfl
@[simp] theorem loadFrame_attempt : (s.loadFrame c extra).attempt = s.attempt := rfl
@[simp] theorem loadFrame_txHead : (s.loadFrame c extra).txbuf.b0 = c.enc := rfl
@[simp] theorem loadFrame_txlen : (s.loadFrame c extra).txlen = BitVec.ofNat 3 (1 + extra.length) := rfl
@[simp] theorem loadFrame_rxbuf : (s.loadFrame c extra).rxbuf = s.rxbuf := rfl
@[simp] theorem loadFrame_lastCloseFailed : (s.loadFrame c extra).lastCloseFailed = s.lastCloseFailed := rfl
@[simp] theorem loadFrame_results : (s.loadFrame c extra).results = s.results := rfl
@[simp] theorem loadFrame_trace : (s.loadFrame c extra).trace = s.trace := rfl
@[simp] theorem loadFrame_op : (s.loadFrame c extra).op = s.op := rfl
@[simp] theorem loadFrame_busOpening : (s.loadFrame c extra).busOpening = s.busOpening := rfl
@[simp] theorem loadFrame_requests : (s.loadFrame c extra).requests = s.requests := rfl
@[simp] theorem loadFrame_answers : (s.loadFrame c extra).answers = s.answers := rfl
@[simp] theorem loadFrame_slot : (s.loadFrame c extra).slot = s.slot := rfl
@[simp] theorem loadFrame_draws : (s.loadFrame c extra).draws = s.draws := rfl

/-- The frame on the bus is the opcode and the payload (R50), for a payload no longer than REQ4's. -/
theorem loadFrame_txFrame (h : extra.length ≤ 3) : (s.loadFrame c extra).txFrame = c.enc :: extra := by
  match extra, h with
  | [], _ => rfl
  | [_], _ => rfl
  | [_, _], _ => rfl
  | [_, _, _], _ => rfl

end loadFrame

/-! ## Inputs -/

@[simp] theorem take_present (s : State) (q : Request) :
    s.take (.present q) = { s with requests := s.requests ++ [q] } := rfl

@[simp] theorem take_answer (s : State) (a : Answer) :
    s.take (.answer a) = { s with answers := s.answers ++ [a] } := rfl

@[simp] theorem receive_run (s : State) (i : RunInput) : s.receive (.run i) = s.take i := rfl

@[simp] theorem receive_reset (s : State) : s.receive .reset = s.afterReset := rfl

/-- A frame of one byte on the bus (R51). -/
theorem txFrame_one (s : State) (h : s.txlen = 1#3) : s.txFrame = [s.txbuf.b0] := by
  simp [State.txFrame, h, Frame.toList]

end Machine

end Sys2Proof
end

