-- ==== Sys2Proof/Laws/Ops.lean ====
section
/-! SUPPORT. What each shared operation can do, said once: one equation for each answer of the transport, one rule that
carries a property through the loop of `exchange`, and which operations and steps answer a next state. Later proofs cite
these and unfold nothing. -/

namespace Sys2Proof.Machine

/-! ## write_command -/

theorem awaitWrite_nil (done : Bool → State → State) (s : State) (h : s.answers = []) : awaitWrite done s = s := by
  simp [awaitWrite, h]

theorem awaitWrite_cons (done : Bool → State → State) (s : State) (a : Answer) (rest : List Answer)
    (h : s.answers = a :: rest) :
    awaitWrite done s = done a.isOk { s with answers := rest, trace := s.trace ++ [.write s.txFrame a.isOk] } := by
  simp [awaitWrite, h]

/-- A frame that fits is loaded and its `BusWrite` put out (R90). -/
theorem writeCommand_fits (c : Cmd) (extra : List Byte) (done : Bool → State → State) (s : State)
    (h : extra.length ≤ 3) :
    writeCommand c extra done s = awaitWrite done { s.loadFrame c extra with phase := .writing } := by
  have : ¬ Config.N < 1 + extra.length := by simp only [Config.N]; omega
  simp [writeCommand, this]

/-- The result of `return write_command(...)`. -/
theorem returnWrite_eq (ok : Bool) (s : State) :
    returnWrite ok s = finish (if ok then .ok else .err .ioError) s := by
  cases ok <;> rfl

theorem endAllOff_close (ok : Bool) (s : State) (h : s.op = some .closeCodec) :
    endAllOff ok s = finish .ok { s with lastCloseFailed := !ok, ready := false } := by
  simp [endAllOff, h, endTeardown]

theorem endAllOff_other (ok : Bool) (s : State) (h : s.op ≠ some .closeCodec) : endAllOff ok s = returnWrite ok s := by
  simp [endAllOff, h]

/-! ## One cycle of exchange -/

theorem awaitCycleWrite_nil (acc retry : State → State) (s : State) (h : s.answers = []) :
    awaitCycleWrite acc retry s = s := by
  simp [awaitCycleWrite, h]

theorem awaitCycleWrite_fail (acc retry : State → State) (s : State) (rest : List Answer)
    (h : s.answers = .fail :: rest) :
    awaitCycleWrite acc retry s =
      finish (.err .ioError) { s with answers := rest, trace := s.trace ++ [.write s.txFrame false] } := by
  simp [awaitCycleWrite, h, raise_eq]

theorem awaitCycleWrite_ok (acc retry : State → State) (s : State) (ack : Frame) (rest : List Answer)
    (h : s.answers = .ok ack :: rest) :
    awaitCycleWrite acc retry s =
      awaitRead acc retry
        { s with answers := rest, trace := s.trace ++ [.write s.txFrame true], phase := .reading } := by
  simp [awaitCycleWrite, h]

theorem awaitRead_nil (acc retry : State → State) (s : State) (h : s.answers = []) : awaitRead acc retry s = s := by
  simp [awaitRead, h]

theorem awaitRead_fail (acc retry : State → State) (s : State) (rest : List Answer) (h : s.answers = .fail :: rest) :
    awaitRead acc retry s =
      finish (.err .ioError)
        { s with
          answers := rest
          trace := s.trace ++ [.read none]
          rxbuf := Config.rxAfterFailedRead s.draws
          draws := s.draws + 1 } := by
  simp [awaitRead, h, raise_eq]

theorem awaitRead_match (acc retry : State → State) (s : State) (f : Frame) (rest : List Answer)
    (h : s.answers = .ok f :: rest) (he : f.b0 = s.cur.enc) :
    awaitRead acc retry s =
      acc { s with answers := rest, trace := s.trace ++ [.read (some f)], rxbuf := f } := by
  simp [awaitRead, h, echoOk, he]

theorem awaitRead_mismatch (acc retry : State → State) (s : State) (f : Frame) (rest : List Answer)
    (h : s.answers = .ok f :: rest) (he : f.b0 ≠ s.cur.enc) :
    awaitRead acc retry s =
      retry { s with answers := rest, trace := s.trace ++ [.read (some f)], rxbuf := f } := by
  simp [awaitRead, h, echoOk, he]

theorem cycles_zero (acc : State → State) (s : State) :
    cycles acc 0 s = finish (.err (.echoMismatch s.cur)) s := rfl

theorem cycles_succ (acc : State → State) (n : Nat) (s : State) :
    cycles acc (n + 1) s =
      awaitCycleWrite acc (cycles acc n) { s with attempt := s.attempt + 1#2, phase := .writing } := rfl

theorem exchange_eq (c : Cmd) (acc : State → State) (s : State) :
    exchange c acc s = cycles acc 3 { s.loadFrame c [] with attempt := 0#2 } := rfl

/-! ## A property carried through an exchange -/

/-- What must be shown to carry a property through an exchange whose valid frame goes to `acc`. `M n` holds at the head of
the loop with `n` cycles left, `W n` and `R n` before the write and before the read of a cycle after which `n` are left,
and `Q` wherever the exchange ends or waits. -/
structure ExchangeRule (acc : State → State) (M W R : Nat → State → Prop) (Q : State → Prop) : Prop where
  exhausted : ∀ t, M 0 t → Q (finish (.err (.echoMismatch t.cur)) t)
  start : ∀ n t, M (n + 1) t → W n { t with attempt := t.attempt + 1#2, phase := .writing }
  writeWaits : ∀ n t, W n t → t.answers = [] → Q t
  writeFails : ∀ n t rest, W n t → t.answers = .fail :: rest →
    Q (finish (.err .ioError) { t with answers := rest, trace := t.trace ++ [.write t.txFrame false] })
  writeOk : ∀ n t ack rest, W n t → t.answers = .ok ack :: rest →
    R n { t with answers := rest, trace := t.trace ++ [.write t.txFrame true], phase := .reading }
  readWaits : ∀ n t, R n t → t.answers = [] → Q t
  readFails : ∀ n t rest, R n t → t.answers = .fail :: rest →
    Q (finish (.err .ioError)
      { t with
        answers := rest
        trace := t.trace ++ [.read none]
        rxbuf := Config.rxAfterFailedRead t.draws
        draws := t.draws + 1 })
  valid : ∀ n t f rest, R n t → t.answers = .ok f :: rest → f.b0 = t.cur.enc →
    Q (acc { t with answers := rest, trace := t.trace ++ [.read (some f)], rxbuf := f })
  invalid : ∀ n t f rest, R n t → t.answers = .ok f :: rest → f.b0 ≠ t.cur.enc →
    M n { t with answers := rest, trace := t.trace ++ [.read (some f)], rxbuf := f }

section
variable {acc : State → State} {M W R : Nat → State → Prop} {Q : State → Prop}

/-- From the read of a cycle, given the rest of the loop. -/
theorem ExchangeRule.readThen (h : ExchangeRule acc M W R Q) (n : Nat) (hloop : ∀ t, M n t → Q (cycles acc n t))
    (s : State) (hR : R n s) : Q (awaitRead acc (cycles acc n) s) := by
  match ha : s.answers with
  | [] => rw [awaitRead_nil _ _ _ ha]; exact h.readWaits n s hR ha
  | .fail :: rest => rw [awaitRead_fail _ _ _ rest ha]; exact h.readFails n s rest hR ha
  | .ok f :: rest =>
    by_cases he : f.b0 = s.cur.enc
    · rw [awaitRead_match _ _ _ f rest ha he]; exact h.valid n s f rest hR ha he
    · rw [awaitRead_mismatch _ _ _ f rest ha he]; exact hloop _ (h.invalid n s f rest hR ha he)

/-- From the write of a cycle, given the rest of the loop. -/
theorem ExchangeRule.writeThen (h : ExchangeRule acc M W R Q) (n : Nat) (hloop : ∀ t, M n t → Q (cycles acc n t))
    (s : State) (hW : W n s) : Q (awaitCycleWrite acc (cycles acc n) s) := by
  match ha : s.answers with
  | [] => rw [awaitCycleWrite_nil _ _ _ ha]; exact h.writeWaits n s hW ha
  | .fail :: rest => rw [awaitCycleWrite_fail _ _ _ rest ha]; exact h.writeFails n s rest hW ha
  | .ok ack :: rest =>
    rw [awaitCycleWrite_ok _ _ _ ack rest ha]
    exact h.readThen n hloop _ (h.writeOk n s ack rest hW ha)

/-- From the head of the loop. -/
theorem ExchangeRule.loop (h : ExchangeRule acc M W R Q) : ∀ (n : Nat) (s : State), M n s → Q (cycles acc n s)
  | 0, s, hM => h.exhausted s hM
  | n + 1, s, hM => by rw [cycles_succ]; exact h.writeThen n (h.loop n) _ (h.start n s hM)

/-- From an outstanding write (PHASE WRITING). -/
theorem ExchangeRule.write (h : ExchangeRule acc M W R Q) (n : Nat) (s : State) (hW : W n s) :
    Q (awaitCycleWrite acc (cycles acc n) s) :=
  h.writeThen n (h.loop n) s hW

/-- From an outstanding read (PHASE READING). -/
theorem ExchangeRule.read (h : ExchangeRule acc M W R Q) (n : Nat) (s : State) (hR : R n s) :
    Q (awaitRead acc (cycles acc n) s) :=
  h.readThen n (h.loop n) s hR

/-- From the start of an exchange. -/
theorem ExchangeRule.exchange (h : ExchangeRule acc M W R Q) (c : Cmd) (s : State)
    (hM : M 3 { s.loadFrame c [] with attempt := 0#2 }) : Q (exchange c acc s) := by
  rw [exchange_eq]; exact h.loop 3 _ hM

end

/-- What must be shown of `write_command` with a command's payload and its end: where it waits, and where the write has
been answered. -/
theorem writeCommand_rule {Q : State → Prop} (c : Cmd) (extra : List Byte) (done : Bool → State → State) (s : State)
    (he : extra.length ≤ 3) (waits : s.answers = [] → Q { s.loadFrame c extra with phase := .writing })
    (answered : ∀ a rest, s.answers = a :: rest →
      Q (done a.isOk
        { s.loadFrame c extra with
          phase := .writing
          answers := rest
          trace := s.trace ++ [.write (c.enc :: extra) a.isOk] })) :
    Q (writeCommand c extra done s) := by
  have e : State.txFrame { s.loadFrame c extra with phase := .writing } = c.enc :: extra :=
    loadFrame_txFrame s c extra he
  rw [writeCommand_fits _ _ _ _ he]
  match h : s.answers with
  | [] => rw [awaitWrite_nil _ _ (by simpa using h)]; exact waits h
  | a :: rest => rw [awaitWrite_cons _ _ a rest (by simpa using h), e]; exact answered a rest h

/-! ## What a command is -/

/-- A command that only writes is `write_command` with its payload and its end (R98). -/
theorem exec_write (i : Instr) (s : State) (h : i.cmd.isQuery = false) :
    exec i s = .next (writeCommand i.cmd i.extra (writeEndOf i.cmd) s) := by
  cases i <;> first | rfl | cases h

/-- A query is `exchange` with its end (R98). -/
theorem exec_query (i : Instr) (s : State) (h : i.cmd.isQuery = true) :
    exec i s = .next (exchange i.cmd (acceptOf i.cmd) s) := by
  cases i <;> first | rfl | cases h

/-- Every command answers a next state. -/
theorem exec_answers_next (i : Instr) (s : State) : ∃ t, exec i s = .next t := by
  cases i <;> exact ⟨_, rfl⟩

/-- No payload is longer than REQ4's. -/
theorem extra_length_le (i : Instr) : i.extra.length ≤ 3 := by
  cases i <;> simp [Instr.extra]

/-- What a valid frame is turned into: an ended operation, READY set by the handshake alone. -/
theorem acceptOf_cases (c : Cmd) (s : State) :
    (∃ r, acceptOf c s = finish r s ∧ r ≠ .err .ioError ∧ (∀ d, r ≠ .err (.echoMismatch d)) ∧
      r ≠ .err .transportUnavailable ∧ (∀ q, r ≠ .refused q) ∧ (c = .getId → r ≠ .ok)) ∨
    (c = .getId ∧ s.rxbuf.b1 = 0x15#8 ∧ acceptOf c s = finish .ok { s with ready := true }) := by
  cases c
  case getId =>
    by_cases h : s.rxbuf.b1 = 0x15#8
    · exact .inr ⟨rfl, h, by simp [acceptOf, endHandshake, payload, Config.boardId, h]⟩
    · exact .inl ⟨.err .unexpectedDevice, by simp [acceptOf, endHandshake, payload, Config.boardId, h, raise_eq],
        by simp, by simp, by simp, by simp, by simp⟩
  all_goals exact .inl ⟨_, rfl, by simp, by simp, by simp, by simp, by simp⟩

/-- What an answered write of `write_command` is turned into: an ended operation, READY cleared by a teardown alone. -/
theorem writeEndOf_cases (c : Cmd) (ok : Bool) (s : State) :
    (writeEndOf c ok s = finish (if ok then .ok else .err .ioError) s ∧ (c = .allOff → s.op ≠ some .closeCodec)) ∨
    (c = .allOff ∧ s.op = some .closeCodec ∧
      writeEndOf c ok s = finish .ok { s with lastCloseFailed := !ok, ready := false }) := by
  cases c
  case allOff =>
    by_cases h : s.op = some .closeCodec
    · exact .inr ⟨rfl, h, endAllOff_close ok s h⟩
    · exact .inl ⟨(endAllOff_other ok s h).trans (returnWrite_eq ok s), fun _ => h⟩
  all_goals exact .inl ⟨returnWrite_eq ok s, by simp⟩

/-! ## What an accepted operation is -/

/-- What accepting the operation `q` can be: it ends at once and changes nothing else, it issues a command of its own, or
it is OPEN's bus opening. -/
inductive Accepted (q : Request) (s : State) : Prop where
  | notReady (h : accept q s = .next (finish (.refused .notReady) s)) (hop : q.op ≠ .openCodec) (hcl : q.op ≠ .closeCodec)
      (hr : s.ready = false)
  | alreadyOpen (h : accept q s = .next (finish (.refused .alreadyOpen) s)) (hop : q.op = .openCodec) (hr : s.ready = true)
  | badOperand (h : accept q s = .next (finish (.refused .badOperand) s)) (hop : q.op ≠ .openCodec) (hcl : q.op ≠ .closeCodec)
      (hr : s.ready = true)
  | closed (h : accept q s = .next (finish .ok s)) (hop : q.op = .closeCodec) (hr : s.ready = false)
  | issued (i : Instr) (h : accept q s = exec i { s with op := some q.op }) (hop : q.op ≠ .openCodec)
      (hi : q.op.issues i.cmd = true) (hr : s.ready = true)
  | opening (h : accept q s = awaitBusOpen { s with op := some .openCodec, phase := .writing, busOpening := true })
      (hop : q.op = .openCodec) (hr : s.ready = false)

/-- An operation without marshalling. -/
theorem accepted_plain (q : Request) (s : State) (i : Instr) (hop : q.op ≠ .openCodec) (hcl : q.op ≠ .closeCodec)
    (hi : q.op.issues i.cmd = true)
    (h : accept q s = requireReady (fun s => exec i { s with op := some q.op }) s) : Accepted q s := by
  cases hr : s.ready with
  | true => exact .issued i (by simp [h, requireReady, hr]) hop hi hr
  | false => exact .notReady (by simp [h, requireReady, hr, refuse_eq]) hop hcl hr

/-- A motor operation. -/
theorem accepted_motor (q : Request) (s : State) (fwd rev : Byte → Instr) (hop : q.op ≠ .openCodec) (hcl : q.op ≠ .closeCodec)
    (hf : ∀ m, q.op.issues (fwd m).cmd = true) (hv : ∀ m, q.op.issues (rev m).cmd = true)
    (h : accept q s = requireReady (runMotor q.op fwd rev q.power) s) : Accepted q s := by
  cases hr : s.ready with
  | false => exact .notReady (by simp [h, requireReady, hr, refuse_eq]) hop hcl hr
  | true =>
    cases hm : marshalPower fwd rev q.power.value with
    | none => exact .badOperand (by simp [h, requireReady, hr, runMotor, hm, refuse_eq]) hop hcl hr
    | some i =>
      refine .issued i (by simp [h, requireReady, hr, runMotor, hm]) hop ?_ hr
      obtain ⟨x, -, rfl⟩ := Option.map_eq_some_iff.mp hm
      split
      · exact hf _
      · exact hv _

/-- Accepting an operation is one of the cases of `Accepted`. -/
theorem accept_cases (q : Request) (s : State) : Accepted q s := by
  cases hop : q.op
  case openCodec =>
    cases hr : s.ready with
    | true => exact .alreadyOpen (by simp [accept, hop, opOpen, hr, refuse_eq]) hop hr
    | false => exact .opening (by simp [accept, hop, opOpen, hr]) hop hr
  case closeCodec =>
    cases hr : s.ready with
    | true => exact .issued .allOff (by simp [accept, hop, opClose, hr]) (by simp [hop]) (by simp [hop, OpName.issues, Instr.cmd]) hr
    | false => exact .closed (by simp [accept, hop, opClose, hr]) hop hr
  case setLed =>
    exact accepted_plain q s (.setLed q.r q.g q.b) (by simp [hop]) (by simp [hop]) (by simp [hop, OpName.issues, Instr.cmd])
      (by simp [accept, hop, opSetLed])
  case stop =>
    exact accepted_plain q s .allOff (by simp [hop]) (by simp [hop]) (by simp [hop, OpName.issues, Instr.cmd])
      (by simp [accept, hop, opStop])
  case getDriveFaultA =>
    exact accepted_plain q s .getDriveFaultFlagA (by simp [hop]) (by simp [hop])
      (by simp [hop, OpName.issues, Instr.cmd]) (by simp [accept, hop, opGetDriveFaultA])
  case getDriveFaultB =>
    exact accepted_plain q s .getDriveFaultFlagB (by simp [hop]) (by simp [hop])
      (by simp [hop, OpName.issues, Instr.cmd]) (by simp [accept, hop, opGetDriveFaultB])
  case getBatteryVoltage =>
    exact accepted_plain q s .getBatteryVoltage (by simp [hop]) (by simp [hop])
      (by simp [hop, OpName.issues, Instr.cmd]) (by simp [accept, hop, opGetBatteryVoltage])
  case setMotorA =>
    exact accepted_motor q s .setMotorAForward .setMotorAReverse (by simp [hop]) (by simp [hop])
      (by simp [hop, OpName.issues, Instr.cmd]) (by simp [hop, OpName.issues, Instr.cmd])
      (by simp [accept, hop, opSetMotorA])
  case setMotorB =>
    exact accepted_motor q s .setMotorBForward .setMotorBReverse (by simp [hop]) (by simp [hop])
      (by simp [hop, OpName.issues, Instr.cmd]) (by simp [hop, OpName.issues, Instr.cmd])
      (by simp [accept, hop, opSetMotorB])
  case setMotors =>
    exact accepted_motor q s .setMotorsForward .setMotorsReverse (by simp [hop]) (by simp [hop])
      (by simp [hop, OpName.issues, Instr.cmd]) (by simp [hop, OpName.issues, Instr.cmd])
      (by simp [accept, hop, opSetMotors])

end Sys2Proof.Machine
end

