-- ==== Sys2Proof/Laws/Exchange.lean ====
section
/-! SUPPORT. An exchange as a whole: what it does when its first frames all fail the echo check. -/

namespace Sys2Proof.Machine

theorem ofNat_succ (k : Nat) : BitVec.ofNat 2 k + 1#2 = BitVec.ofNat 2 (k + 1) := by
  apply BitVec.eq_of_toNat_eq; simp

/-- Cycles whose frames all fail the echo check are passed through: what they leave in each register. -/
theorem cycles_mismatch (acc : State → State) (c : Cmd) (bad : List (Frame × Frame)) :
    ∀ (n : Nat) (s : State) (rest : List Answer), s.cur = c → s.txlen = 1#3 → s.txbuf.b0 = c.enc →
      AllMismatch c bad → s.answers = cycleAnswers bad ++ rest →
      cycles acc (bad.length + n) s = cycles acc n { s with
        attempt := s.attempt + BitVec.ofNat 2 bad.length, rxbuf := lastRead bad s.rxbuf,
        phase := if bad = [] then s.phase else .reading
        answers := rest, trace := s.trace ++ cycleEvents c bad } := by
  induction bad with
  | nil => intro n s rest h1 h2 h3 _ ha; simp [cycleAnswers] at ha; subst h1; subst ha; simp [lastRead, cycleEvents]
  | cons p bad ih =>
    intro n s rest h1 h2 h3 hm ha
    have hp := hm p (by simp)
    have hm' : AllMismatch c bad := fun x hx => hm x (by simp [hx])
    rw [show (p :: bad).length + n = (bad.length + n) + 1 by simp; omega, cycles_succ,
      awaitCycleWrite_ok (ack := p.1) (rest := .ok p.2 :: (cycleAnswers bad ++ rest)) (h := by simpa [cycleAnswers] using ha),
      awaitRead_mismatch (f := p.2) (rest := cycleAnswers bad ++ rest) (h := rfl) (he := by simpa [h1] using hp)]
    rw [ih n _ rest]
    rotate_left
    · exact h1
    · exact h2
    · exact h3
    · exact hm'
    · rfl
    refine congrArg _ ?_
    simp only [State.mk.injEq, true_and, and_true]
    refine ⟨?_, ?_, ?_, ?_⟩
    · simp
    · rw [BitVec.add_assoc]; congr 1; apply BitVec.eq_of_toNat_eq; simp; omega
    · cases bad using List.reverseRecOn <;> simp [lastRead, List.getLast?_cons]
    · have : ({ s with attempt := s.attempt + 1#2, phase := .writing } : State).txFrame = [c.enc] :=
        (txFrame_one { s with attempt := s.attempt + 1#2, phase := .writing } h2).trans (congrArg (fun x => [x]) h3)
      rw [this]
      simp [cycleEvents]

/-- An exchange after such cycles, with `n` cycles left. -/
theorem exchange_mismatch (acc : State → State) (c : Cmd) (bad : List (Frame × Frame)) (n : Nat) (s : State) (rest : List Answer)
   (hn : bad.length + n = 3) (hm : AllMismatch c bad) (ha : s.answers = cycleAnswers bad ++ rest) :
   exchange c acc s = cycles acc n { s with
        cur := c, txlen := 1#3, txbuf := { s.txbuf with b0 := c.enc }
        attempt := BitVec.ofNat 2 bad.length, rxbuf := lastRead bad s.rxbuf,
        phase := if bad = [] then s.phase else .reading
        answers := rest, trace := s.trace ++ cycleEvents c bad } := by
  have := cycles_mismatch acc c bad n { s.loadFrame c [] with attempt := 0#2 } rest rfl rfl rfl hm (by simpa using ha)
  rw [hn] at this
  rw [exchange_eq, this]
  simp [State.loadFrame]

/-- An exchange whose first valid frame `f` follows such cycles: `f` is handed on, in that cycle (R92, R94). -/
theorem exchange_valid (acc : State → State) (c : Cmd) (bad : List (Frame × Frame)) (s : State) (ack f : Frame) (rest : List Answer)
   (hn : bad.length ≤ 2) (hm : AllMismatch c bad) (ha : s.answers = cycleAnswers bad ++ .ok ack :: .ok f :: rest) (hf : f.b0 = c.enc):
   exchange c acc s = acc { s with
        cur := c, txlen := 1#3, txbuf := { s.txbuf with b0 := c.enc }
        attempt := BitVec.ofNat 2 (bad.length + 1), rxbuf := f,
        phase := .reading
        answers := rest, trace := s.trace ++ (cycleEvents c bad ++ [.write [c.enc] true, .read (some f)]) } := by
  obtain ⟨n, hn⟩ : ∃ n, bad.length + (n + 1) = 3 := ⟨2 - bad.length, by omega⟩
  rw [exchange_mismatch acc c bad _ s _ hn hm ha, cycles_succ, awaitCycleWrite_ok (ack := ack) (rest := .ok f :: rest) (h := rfl),
    awaitRead_match (f := f) (rest := rest) (h := rfl) (he := hf)]
  simp [txFrame_one, ofNat_succ]

end Sys2Proof.Machine
end

