-- ==== Sys2Proof/Laws/Step.lean ====
section
/-! SUPPORT. What a step can be, said once (`step_cases`), and that every operation answers a next state. -/

namespace Sys2Proof.Machine

/-- What one step can be, by the state it starts in. -/
inductive Stepped (s : State) : StepResult → Prop where
  | foreignFrame (f : Frame) (e : DecodeError) (hp : s.phase = .idle) (hs : s.slot = some f)
      (hd : decode f.toList = .error e) : Stepped s (.fault (.notARequestFrame e))
  | runsSlot (f : Frame) (i : Instr) (rest : List Byte) (hp : s.phase = .idle) (hs : s.slot = some f)
      (hd : decode f.toList = .ok (i, rest)) : Stepped s (exec i { s with slot := none })
  | waits (hp : s.phase = .idle) (hs : s.slot = none) (hr : s.requests = []) : Stepped s (.next s)
  | accepts (q : Request) (rest : List Request) (hp : s.phase = .idle) (hs : s.slot = none)
      (hr : s.requests = q :: rest) : Stepped s (accept q { s with requests := rest })
  | busOpening (hp : s.phase = .writing) (hb : s.busOpening = true) : Stepped s (awaitBusOpen s)
  | writes (hp : s.phase = .writing) (hb : s.busOpening = false) (hq : s.cur.isQuery = false) :
      Stepped s (.next (awaitWrite (writeEndOf s.cur) s))
  | cycleWrites (hp : s.phase = .writing) (hb : s.busOpening = false) (hq : s.cur.isQuery = true) :
      Stepped s (.next (awaitCycleWrite (acceptOf s.cur) (cycles (acceptOf s.cur) s.cyclesLeft) s))
  | reads (hp : s.phase = .reading) :
      Stepped s (.next (awaitRead (acceptOf s.cur) (cycles (acceptOf s.cur) s.cyclesLeft) s))

/-- A step in IDLE. -/
theorem step_idle (s : State) (hp : s.phase = .idle) : step s = startNext s := by
  simp [step, runSequencer, hp]

/-- Every step is one of the cases of `Stepped`. -/
theorem step_cases (s : State) : Stepped s (step s) := by
  cases hp : s.phase with
  | idle =>
    rw [step_idle s hp]
    cases hs : s.slot with
    | some f =>
      cases hd : decode f.toList with
      | ok x =>
        have : startNext s = exec x.1 { s with slot := none } := by simp [startNext, runSlot, hs, hd]
        rw [this]; exact .runsSlot f x.1 x.2 hp hs hd
      | error e =>
        have : startNext s = .fault (.notARequestFrame e) := by simp [startNext, runSlot, hs, hd]
        rw [this]; exact .foreignFrame f e hp hs hd
    | none =>
      cases hr : s.requests with
      | nil =>
        have : startNext s = .next s := by simp [startNext, hs, hr]
        rw [this]; exact .waits hp hs hr
      | cons q rest =>
        have : startNext s = accept q { s with requests := rest } := by simp [startNext, hs, hr]
        rw [this]; exact .accepts q rest hp hs hr
  | writing =>
    cases hb : s.busOpening with
    | true =>
      have : step s = awaitBusOpen s := by simp [step, runSequencer, resume, hp, hb]
      rw [this]; exact .busOpening hp hb
    | false =>
      cases hq : s.cur.isQuery with
      | true =>
        have : step s = .next (awaitCycleWrite (acceptOf s.cur) (cycles (acceptOf s.cur) s.cyclesLeft) s) := by
          simp [step, runSequencer, resume, hp, hb, hq]
        rw [this]; exact .cycleWrites hp hb hq
      | false =>
        have : step s = .next (awaitWrite (writeEndOf s.cur) s) := by
          simp [step, runSequencer, resume, hp, hb, hq]
        rw [this]; exact .writes hp hb hq
  | reading =>
    have : step s = .next (awaitRead (acceptOf s.cur) (cycles (acceptOf s.cur) s.cyclesLeft) s) := by
      simp [step, runSequencer, resume, hp]
    rw [this]; exact .reads hp

/-- OPEN's bus opening: it waits, its `BusOpen` fails, or the handshake exchange follows. -/
theorem awaitBusOpen_rule {Q : StepResult → Prop} (s : State) (waits : s.answers = [] → Q (.next s))
    (fails : ∀ rest, s.answers = .fail :: rest →
      Q (.next (finish (.err .transportUnavailable) { s with answers := rest, trace := s.trace ++ [.busOpen false] })))
    (opens : ∀ ack rest, s.answers = .ok ack :: rest →
      Q (.next (exchange .getId endHandshake
        { s with answers := rest, trace := s.trace ++ [.busOpen true], phase := .idle, busOpening := false }))) :
    Q (awaitBusOpen s) := by
  match h : s.answers with
  | [] => simpa [awaitBusOpen, h] using waits h
  | .fail :: rest => simpa [awaitBusOpen, h, raise_eq] using fails rest h
  | .ok ack :: rest => simpa [awaitBusOpen, h, exec, execGetId] using opens ack rest h

/-- OPEN's bus opening answers a next state. -/
theorem awaitBusOpen_answers_next (s : State) : ∃ t, awaitBusOpen s = .next t :=
  awaitBusOpen_rule (Q := fun r => ∃ t, r = .next t) s (fun _ => ⟨_, rfl⟩) (fun _ _ => ⟨_, rfl⟩) (fun _ _ _ => ⟨_, rfl⟩)

/-- Every accepted operation answers a next state. -/
theorem accept_answers_next (q : Request) (s : State) : ∃ t, accept q s = .next t := by
  cases accept_cases q s with
  | notReady h | alreadyOpen h | badOperand h | closed h => exact ⟨_, h⟩
  | issued i h => rw [h]; exact exec_answers_next i _
  | opening h => rw [h]; exact awaitBusOpen_answers_next _

/-- What a command does, as one rule: it waits or ends as `write_command` does, or it is an exchange. -/
theorem exec_rule {Q : StepResult → Prop} (i : Instr) (s : State)
    (write : i.cmd.isQuery = false → Q (.next (writeCommand i.cmd i.extra (writeEndOf i.cmd) s)))
    (query : i.cmd.isQuery = true → Q (.next (exchange i.cmd (acceptOf i.cmd) s))) : Q (exec i s) := by
  cases hq : i.cmd.isQuery with
  | true => rw [exec_query i s hq]; exact query hq
  | false => rw [exec_write i s hq]; exact write hq

/-- The rule of a step that answers a next state: what must be shown of each way it can go. -/
theorem step_rule {Q : State → Prop} (s t : State) (h : step s = .next t)
    (waits : s.phase = .idle → s.slot = none → s.requests = [] → Q s)
    (slotCmd : ∀ f i rest, s.phase = .idle → s.slot = some f → decode f.toList = .ok (i, rest) →
      ∀ u, exec i { s with slot := none } = .next u → Q u)
    (ends : ∀ q rest r, s.phase = .idle → s.slot = none → s.requests = q :: rest →
      accept q { s with requests := rest } = .next (finish r { s with requests := rest }) →
      ((∃ x, r = .refused x) ∧ q.op ≠ .closeCodec ∨ r = .ok ∧ q.op = .closeCodec ∧ s.ready = false) → Q (finish r { s with requests := rest }))
    (issues : ∀ q rest i, s.phase = .idle → s.slot = none → s.requests = q :: rest → q.op ≠ .openCodec →
      s.ready = true → q.op.issues i.cmd = true →
      ∀ u, exec i { s with requests := rest, op := some q.op } = .next u → Q u)
    (opens : ∀ q rest, s.phase = .idle → s.slot = none → s.requests = q :: rest → q.op = .openCodec → s.ready = false →
      ∀ u, awaitBusOpen
        { s with requests := rest, op := some .openCodec, phase := .writing, busOpening := true } = .next u → Q u)
    (opening : s.phase = .writing → s.busOpening = true → ∀ u, awaitBusOpen s = .next u → Q u)
    (writes : s.phase = .writing → s.busOpening = false → s.cur.isQuery = false →
      Q (awaitWrite (writeEndOf s.cur) s))
    (cycleWrites : s.phase = .writing → s.busOpening = false → s.cur.isQuery = true →
      Q (awaitCycleWrite (acceptOf s.cur) (cycles (acceptOf s.cur) s.cyclesLeft) s))
    (reads : s.phase = .reading → Q (awaitRead (acceptOf s.cur) (cycles (acceptOf s.cur) s.cyclesLeft) s)) :
    Q t := by
  have c := step_cases s
  rw [h] at c
  generalize hx : (Host.Outcome.next t : StepResult) = x at c
  cases c with
  | foreignFrame => cases hx
  | runsSlot f i rest hp hs hd => exact slotCmd f i rest hp hs hd t hx.symm
  | waits hp hs hr => cases hx; exact waits hp hs hr
  | accepts q rest hp hs hr =>
    cases accept_cases q { s with requests := rest } with
    | notReady h' _ hc | badOperand h' _ hc =>
      cases h'.symm.trans hx.symm; exact ends q rest _ hp hs hr h' (.inl ⟨⟨_, rfl⟩, hc⟩)
    | alreadyOpen h' ho => cases h'.symm.trans hx.symm; exact ends q rest _ hp hs hr h' (.inl ⟨⟨_, rfl⟩, by simp [ho]⟩)
    | closed h' hc hr' => cases h'.symm.trans hx.symm; exact ends q rest _ hp hs hr h' (.inr ⟨rfl, hc, hr'⟩)
    | issued i h' hop hi hr' => exact issues q rest i hp hs hr hop hr' hi t (h'.symm.trans hx.symm)
    | opening h' hop hr' => exact opens q rest hp hs hr hop hr' t (h'.symm.trans hx.symm)
  | busOpening hp hb => exact opening hp hb t hx.symm
  | writes hp hb hq => cases hx; exact writes hp hb hq
  | cycleWrites hp hb hq => cases hx; exact cycleWrites hp hb hq
  | reads hp => cases hx; exact reads hp

end Sys2Proof.Machine
end

