-- ==== Sys2Proof/Laws/Run.lean ====
section
/-! SUPPORT. What a command in progress comes to, said once (`Run`): for a command just started, one taken up again, and
OPEN's bus opening. -/

namespace Sys2Proof.Machine

/-- What the command `c`, in progress at `s`, has come to at `t`; `frame` is its request frame. -/
inductive Run (c : Cmd) (frame : List Byte) (s t : State) : Prop where
  /-- It waits for an answer. -/
  | waits (phase : t.phase ≠ .idle) (answers : t.answers = []) (results : t.results = s.results) (op : t.op = s.op)
      (ready : t.ready = s.ready) (closeFailed : t.lastCloseFailed = s.lastCloseFailed)
      (opening : t.busOpening = s.busOpening) (cur : t.cur = c)
  /-- It has ended with `r`, READY unchanged. -/
  | ended (r : Result) (results : t.results = s.results ++ [r]) (phase : t.phase = .idle) (op : t.op = none)
      (opening : t.busOpening = false) (ready : t.ready = s.ready) (closeFailed : t.lastCloseFailed = s.lastCloseFailed)
      (notRefused : ∀ q, r ≠ .refused q) (notOpen : r ≠ .err .transportUnavailable)
      (notHandshake : c = .getId → r ≠ .ok) (notTeardown : s.phase ≠ .reading → c = .allOff → s.op ≠ some .closeCodec)
  /-- The handshake has succeeded (R170). -/
  | handshake (cmd : c = .getId) (results : t.results = s.results ++ [.ok]) (phase : t.phase = .idle)
      (op : t.op = none) (opening : t.busOpening = false) (ready : t.ready = true)
      (closeFailed : t.lastCloseFailed = s.lastCloseFailed) (echo : t.rxbuf.b0 = 0x99#8) (id : t.rxbuf.b1 = 0x15#8)
      (last : ∃ es, t.trace = s.trace ++ es ++ [.read (some t.rxbuf)])
  /-- The teardown has ended (R173). -/
  | teardown (cmd : c = .allOff) (closing : s.op = some .closeCodec) (results : t.results = s.results ++ [.ok])
      (phase : t.phase = .idle) (op : t.op = none) (opening : t.busOpening = false) (ready : t.ready = false) (ok : Bool)
      (trace : t.trace = s.trace ++ [.write frame ok]) (closeFailed : t.lastCloseFailed = !ok)

/-- An answered `write_command` is a run. -/
theorem run_writeEnd (c : Cmd) (frame : List Byte) (s u : State) (ok : Bool) (hc : c.isQuery = false) (results : u.results = s.results)
    (op : u.op = s.op) (ready : u.ready = s.ready) (closeFailed : u.lastCloseFailed = s.lastCloseFailed)
    (trace : u.trace = s.trace ++ [.write frame ok]) : Run c frame s (writeEndOf c ok u) := by
  rcases writeEndOf_cases c ok u with ⟨e, hop⟩ | ⟨hc, hop, e⟩ <;> rw [e]
  · exact .ended (if ok then .ok else .err .ioError) (by simp [results]) rfl rfl rfl ready closeFailed
      (by cases ok <;> simp) (by cases ok <;> simp) (by rintro rfl; cases hc) (fun _ => op ▸ hop)
  · exact .teardown hc (op ▸ hop) (by simp [results]) rfl rfl rfl rfl ok trace rfl

/-- What is kept between two transactions of an exchange for `c` that was in progress at `s`. -/
structure Between (c : Cmd) (s u : State) : Prop where
  query : s.phase = .reading ∨ c.isQuery = true
  cur : u.cur = c
  results : u.results = s.results
  op : u.op = s.op
  ready : u.ready = s.ready
  closeFailed : u.lastCloseFailed = s.lastCloseFailed
  opening : u.busOpening = s.busOpening
  trace : ∃ es, u.trace = s.trace ++ es

theorem Between.refl (s : State) (h : s.phase = .reading ∨ s.cur.isQuery = true) : Between s.cur s s := ⟨h, rfl, rfl, rfl, rfl, rfl, rfl, [], by simp⟩

/-- An exchange is no teardown, outside states in which a `BusRead` is outstanding in a command that only writes. -/
theorem Between.notTeardown {c : Cmd} {s u : State} (h : Between c s u) (hr : s.phase ≠ .reading) (hc : c = .allOff) :
    s.op ≠ some .closeCodec := by
  rcases h.query with h | h
  · exact absurd h hr
  · rw [hc] at h; cases h

/-- One more event keeps it. -/
theorem Between.event {c : Cmd} {s u v : State} {e : Event} (h : Between c s u) (cur : v.cur = u.cur)
    (results : v.results = u.results) (op : v.op = u.op) (ready : v.ready = u.ready)
    (closeFailed : v.lastCloseFailed = u.lastCloseFailed) (opening : v.busOpening = u.busOpening)
    (trace : v.trace = u.trace ++ [e]) : Between c s v := by
  obtain ⟨es, he⟩ := h.trace
  exact ⟨h.query, cur.trans h.cur, results.trans h.results, op.trans h.op, ready.trans h.ready, closeFailed.trans h.closeFailed,
    opening.trans h.opening, es ++ [e], by rw [trace, he]; simp⟩

/-- An exchange that ends with an error is a run. -/
theorem Between.ended {c : Cmd} {frame : List Byte} {s u : State} {r : Result} (h : Between c s u)
    (hr : ∀ q, r ≠ .refused q) (ho : r ≠ .err .transportUnavailable) (hk : c = .getId → r ≠ .ok) :
    Run c frame s (finish r u) :=
  .ended r (by simp [h.results]) rfl rfl rfl h.ready h.closeFailed hr ho hk h.notTeardown

/-- A valid frame taken up is a run. -/
theorem Between.accepted {c : Cmd} {frame : List Byte} {s u : State} {f : Frame} {rest : List Answer}
    (h : Between c s u) (hf : f.b0 = u.cur.enc) :
    Run c frame s (acceptOf c { u with answers := rest, trace := u.trace ++ [.read (some f)], rxbuf := f }) := by
  rcases acceptOf_cases c { u with answers := rest, trace := u.trace ++ [.read (some f)], rxbuf := f } with
    ⟨r, e, -, -, hto, hrf, hok⟩ | ⟨hc, hid, e⟩ <;> rw [e]
  · exact .ended r (by simp [h.results]) rfl rfl rfl h.ready h.closeFailed hrf hto hok h.notTeardown
  · obtain ⟨es, he⟩ := h.trace
    refine .handshake hc (by simp [h.results]) rfl rfl rfl rfl h.closeFailed ?_ hid ⟨es, ?_⟩
    · rw [h.cur, hc] at hf; exact hf
    · simp [he]

/-- Every exchange is a run: it waits only while a transaction of it is outstanding. -/
theorem run_exchangeRule (c : Cmd) (frame : List Byte) (s : State) :
    ExchangeRule (acceptOf c) (fun _ u => Between c s u) (fun _ u => Between c s u ∧ u.phase ≠ .idle)
      (fun _ u => Between c s u ∧ u.phase ≠ .idle) (Run c frame s) where
  exhausted _ h := h.ended (by simp) (by simp) (by simp)
  start _ _ h := ⟨⟨h.query, h.cur, h.results, h.op, h.ready, h.closeFailed, h.opening, h.trace⟩, by simp⟩
  writeWaits _ _ h ha := .waits h.2 ha h.1.results h.1.op h.1.ready h.1.closeFailed h.1.opening h.1.cur
  writeFails _ u rest h _ :=
    Between.ended (h.1.event (v := { u with answers := rest, trace := u.trace ++ [.write u.txFrame false] })
      rfl rfl rfl rfl rfl rfl rfl) (by simp) (by simp) (by simp)
  writeOk _ _ _ _ h _ := ⟨h.1.event rfl rfl rfl rfl rfl rfl rfl, by simp⟩
  readWaits _ _ h ha := .waits h.2 ha h.1.results h.1.op h.1.ready h.1.closeFailed h.1.opening h.1.cur
  readFails _ u rest h _ :=
    Between.ended (h.1.event (v :=
      { u with
        answers := rest
        trace := u.trace ++ [.read none]
        rxbuf := Config.rxAfterFailedRead u.draws
        draws := u.draws + 1 }) rfl rfl rfl rfl rfl rfl rfl) (by simp) (by simp) (by simp)
  valid _ _ _ _ h _ he := h.1.accepted he
  invalid _ _ _ _ h _ _ := h.1.event rfl rfl rfl rfl rfl rfl rfl

/-- A command that `exec` starts is a run. -/
theorem exec_run (i : Instr) (s t : State) (h : exec i s = .next t) : Run i.cmd (encode i) s t := by
  revert h
  refine exec_rule (Q := fun r => r = .next t → Run i.cmd (encode i) s t) i s ?_ ?_
  · rintro hq h; cases h
    refine writeCommand_rule (Q := Run i.cmd (encode i) s) _ _ _ _ (extra_length_le i) ?_ ?_
    · intro ha; exact .waits (by simp) ha rfl rfl rfl rfl rfl rfl
    · intro a rest ha; exact run_writeEnd _ _ s _ _ hq rfl rfl rfl rfl rfl
  · rintro hq h; cases h
    exact (run_exchangeRule i.cmd (encode i) s).exchange _ _ ⟨.inr hq, rfl, rfl, rfl, rfl, rfl, rfl, [], by simp⟩

/-- A `write_command` taken up again is a run. -/
theorem awaitWrite_run (s : State) (hp : s.phase ≠ .idle) (hq : s.cur.isQuery = false) :
    Run s.cur s.txFrame s (awaitWrite (writeEndOf s.cur) s) := by
  match ha : s.answers with
  | [] => rw [awaitWrite_nil _ _ ha]; exact .waits hp ha rfl rfl rfl rfl rfl rfl
  | a :: rest => rw [awaitWrite_cons _ _ a rest ha]; exact run_writeEnd _ _ s _ _ hq rfl rfl rfl rfl rfl

/-- An exchange taken up again at its write is a run. -/
theorem awaitCycleWrite_run (n : Nat) (s : State) (hp : s.phase ≠ .idle) (hq : s.cur.isQuery = true) :
    Run s.cur s.txFrame s (awaitCycleWrite (acceptOf s.cur) (cycles (acceptOf s.cur) n) s) :=
  (run_exchangeRule s.cur s.txFrame s).write n s ⟨.refl s (.inr hq), hp⟩

/-- An exchange taken up again at its read is a run. -/
theorem awaitRead_run (n : Nat) (s : State) (hp : s.phase = .reading) :
    Run s.cur s.txFrame s (awaitRead (acceptOf s.cur) (cycles (acceptOf s.cur) n) s) :=
  (run_exchangeRule s.cur s.txFrame s).read n s ⟨.refl s (.inl hp), by simp [hp]⟩

/-! ## What is presented is kept -/

/-- The request side and the slot of two states are the same. -/
def SameInputs (s t : State) : Prop :=
  t.requests = s.requests ∧ t.slot = s.slot

theorem sameInputs_writeEnd (c : Cmd) (ok : Bool) (s u : State) (h : SameInputs s u) :
    SameInputs s (writeEndOf c ok u) := by
  rcases writeEndOf_cases c ok u with ⟨e, _⟩ | ⟨_, _, e⟩ <;> rw [e] <;> exact h

theorem sameInputs_accept (c : Cmd) (s u : State) (h : SameInputs s u) : SameInputs s (acceptOf c u) := by
  rcases acceptOf_cases c u with ⟨r, e, _⟩ | ⟨_, _, e⟩ <;> rw [e] <;> exact h

theorem sameInputs_exchangeRule (c : Cmd) (s : State) :
    ExchangeRule (acceptOf c) (fun _ => SameInputs s) (fun _ => SameInputs s) (fun _ => SameInputs s)
      (SameInputs s) where
  exhausted _ h := h
  start _ _ h := h
  writeWaits _ _ h _ := h
  writeFails _ _ _ h _ := h
  writeOk _ _ _ _ h _ := h
  readWaits _ _ h _ := h
  readFails _ _ _ h _ := h
  valid _ _ _ _ h _ _ := sameInputs_accept c s _ h
  invalid _ _ _ _ h _ _ := h

/-- A command takes nothing from the request side and leaves the slot. -/
theorem exec_sameInputs (i : Instr) (s t : State) (h : exec i s = .next t) : SameInputs s t := by
  revert h
  refine exec_rule (Q := fun r => r = .next t → SameInputs s t) i s ?_ ?_
  · rintro - h; cases h
    refine writeCommand_rule (Q := SameInputs s) _ _ _ _ (extra_length_le i) (fun _ => ⟨rfl, rfl⟩) ?_
    intro a rest ha; exact sameInputs_writeEnd _ _ s _ ⟨rfl, rfl⟩
  · rintro - h; cases h
    exact (sameInputs_exchangeRule i.cmd s).exchange _ _ ⟨rfl, rfl⟩

/-- OPEN's bus opening takes nothing from the request side and leaves the slot. -/
theorem awaitBusOpen_sameInputs (s t : State) (h : awaitBusOpen s = .next t) : SameInputs s t := by
  revert h
  refine awaitBusOpen_rule (Q := fun r => r = .next t → SameInputs s t) s ?_ ?_ ?_
  · rintro - h; cases h; exact ⟨rfl, rfl⟩
  · rintro rest - h; cases h; exact ⟨rfl, rfl⟩
  · rintro ack rest - h; cases h
    exact (sameInputs_exchangeRule .getId s).exchange _ _ ⟨rfl, rfl⟩

/-! ## A step, as a run -/

/-- The operation the next step accepts is OPEN, with READY = 0. -/
def AcceptsOpen (s : State) : Prop :=
  s.phase = .idle ∧ s.slot = none ∧ s.ready = false ∧ ∃ q rest, s.requests = q :: rest ∧ q.op = .openCodec

/-- The `BusOpen` of an OPEN accepted earlier is outstanding. -/
def OpenOutstanding (s : State) : Prop :=
  s.phase = .writing ∧ s.busOpening = true

/-- What a step from `s` to `t` has done. -/
inductive StepRun (s t : State) : Prop where
  /-- Nothing was to be done. -/
  | idle (same : t = s) (phase : s.phase = .idle) (slot : s.slot = none) (requests : s.requests = [])
  /-- An operation has ended at once: a refusal, or CLOSE with READY = 0. -/
  | atOnce (q : Request) (rest : List Request) (r : Result) (phase : s.phase = .idle) (requests : s.requests = q :: rest)
      (state : t = finish r { s with requests := rest })
      (why : (∃ x, r = .refused x) ∧ q.op ≠ .closeCodec ∨ r = .ok ∧ q.op = .closeCodec ∧ s.ready = false)
  /-- OPEN's bus opening waits. -/
  | opening (results : t.results = s.results) (stuck : Stuck t) (ready : t.ready = s.ready)
      (closeFailed : t.lastCloseFailed = s.lastCloseFailed) (op : HostDriven s → t.op ≠ none)
  /-- OPEN's bus opening has failed (R191). -/
  | openFails (results : t.results = s.results ++ [.err .transportUnavailable]) (phase : t.phase = .idle)
      (op : t.op = none) (ready : t.ready = s.ready) (closeFailed : t.lastCloseFailed = s.lastCloseFailed)
      (trace : t.trace = s.trace ++ [.busOpen false]) (why : AcceptsOpen s ∨ OpenOutstanding s)
  /-- A command was started at `u`, or one in progress at `u` taken up again. -/
  | run (c : Cmd) (frame : List Byte) (u : State) (run : Run c frame u t) (ready : u.ready = s.ready)
      (closeFailed : u.lastCloseFailed = s.lastCloseFailed) (results : u.results = s.results)
      (trace : ∃ es, u.trace = s.trace ++ es ∧ (c ≠ .getId → es = []))
      (allOff : s.phase = .idle ∨ Inv s → c = .allOff → frame = [0x0E#8, 0x00#8])
      (closing : u.op = some .closeCodec → s.ready = true ∨ s.op = some .closeCodec) (op : HostDriven s → u.op ≠ none)

/-- OPEN's bus opening, outstanding at `u`. -/
theorem awaitBusOpen_run (s u t : State) (h : awaitBusOpen u = .next t) (ready : u.ready = s.ready)
    (closeFailed : u.lastCloseFailed = s.lastCloseFailed) (results : u.results = s.results)
    (trace : u.trace = s.trace) (hp : u.phase = .writing)
    (op : (u.op = some .openCodec ∧ AcceptsOpen s) ∨ (u.op = s.op ∧ OpenOutstanding s)) : StepRun s t := by
  have hd : HostDriven s → u.op ≠ none := by
    rcases op with ⟨h, _⟩ | ⟨h, hp, _⟩ <;> rw [h]
    · simp
    · exact fun h => h.2 (by simp [hp])
  revert h
  refine awaitBusOpen_rule (Q := fun r => r = .next t → StepRun s t) u ?_ ?_ ?_
  · rintro ha h; cases h; exact .opening results ⟨by simp [hp], ha⟩ ready closeFailed hd
  · rintro rest - h; cases h; exact .openFails (by simp [results]) rfl rfl ready closeFailed (by simp [trace]) (op.imp And.right And.right)
  · rintro ack rest - h
    refine .run .getId (encode .getId) _ (exec_run .getId _ t h) ready closeFailed results
      ⟨[.busOpen true], by simp [trace], by simp⟩ (by simp) ?_ hd
    rcases op with ⟨h, _⟩ | ⟨h, _⟩
    · simp [h]
    · intro hc; exact .inr (by rw [← h]; exact hc)

/-- The frame of AllOff (R58). -/
theorem allOff_frame (i : Instr) (h : i.cmd = .allOff) : encode i = [0x0E#8, 0x00#8] := by
  cases i <;> first | rfl | cases h

/-- Every step that answers a next state is one of the cases of `StepRun`. -/
theorem step_run (s t : State) (h : step s = .next t) : StepRun s t := by
  refine step_rule (Q := StepRun s) s t h ?_ ?_ ?_ ?_ ?_ ?_ ?_ ?_ ?_
  · exact .idle rfl
  · intro f i rest hp hs hd u he
    exact .run i.cmd (encode i) _ (exec_run i _ u he) rfl rfl rfl ⟨[], by simp, by simp⟩ (fun _ => allOff_frame i) .inr
      (fun h => by have := h.1; simp [hs] at this)
  · intro q rest r hp _ hr _ hk; exact .atOnce q rest r hp hr rfl hk
  · intro q rest i hp _ _ hop hr hi u he
    exact .run i.cmd (encode i) _ (exec_run i _ u he) rfl rfl rfl ⟨[], by simp, by simp⟩ (fun _ => allOff_frame i)
      (fun _ => .inl hr) (by simp)
  · intro q rest hp hs hr hop hrd u he
    exact awaitBusOpen_run s _ u he rfl rfl rfl rfl rfl (.inl ⟨rfl, hp, hs, hrd, q, rest, hr, hop⟩)
  · intro hp hb u he
    exact awaitBusOpen_run s s u he rfl rfl rfl rfl hp (.inr ⟨rfl, hp, hb⟩)
  · intro hp hb hq
    have hp' : s.phase ≠ .idle := by simp [hp]
    refine .run _ _ _ (awaitWrite_run s hp' hq) rfl rfl rfl ⟨[], by simp, by simp⟩ ?_ .inr (fun h => h.2 hp')
    rintro (h | h) hc
    · exact absurd h hp'
    · obtain ⟨i, hi, hf⟩ := h.frameIsRequest hp' hb
      rw [hf]; exact allOff_frame i (hi.trans hc)
  · intro hp hb hq
    have hp' : s.phase ≠ .idle := by simp [hp]
    refine .run _ _ _ (awaitCycleWrite_run _ s hp' hq) rfl rfl rfl ⟨[], by simp, by simp⟩ ?_ .inr (fun h => h.2 hp')
    rintro _ hc; rw [hc] at hq; cases hq
  · intro hp
    have hp' : s.phase ≠ .idle := by simp [hp]
    refine .run _ _ _ (awaitRead_run _ s hp) rfl rfl rfl ⟨[], by simp, by simp⟩ ?_ .inr (fun h => h.2 hp')
    rintro (h | h) hc
    · exact absurd h hp'
    · have := h.readingQuery hp; rw [hc] at this; cases this

end Sys2Proof.Machine
end

