-- ==== Sys2Proof/Laws/HostRun.lean ====
section
/-! SUPPORT. Runs of host operations (R230): how a list of inputs makes one, and what they share with every other way the
codec comes to a state. -/

namespace Sys2Proof.Machine

/-- The inputs of a run, with a step after each, go on with it. -/
theorem HostRun.takeAll {qs : List Request} {s t : State} (is : List RunInput) (h : HostRun qs s)
    (hr : runInputs is s = .next t) : HostRun (qs ++ is.flatMap RunInput.operations) t := by
  induction is generalizing qs s with
  | nil => cases hr; simpa using h
  | cons i is ih =>
    simp only [runInputs] at hr
    split at hr
    · next u hu => simpa using ih ((h.take i).step hu) hr
    · cases hr
    · cases hr

/-- A run given by its inputs alone. -/
theorem HostRun.ofInputs {t : State} (is : List RunInput) (h : runInputs is State.reset = .next t) :
    HostRun (is.flatMap RunInput.operations) t :=
  HostRun.takeAll is .start h

/-- A state of a run is one the codec comes to. -/
theorem HostRun.reachable {qs : List Request} {s : State} (h : HostRun qs s) : Reachable s := by
  induction h with
  | start => exact .reset
  | take i _ ih => exact .receive (.run i) ih
  | step _ h ih => exact .step ih h

end Sys2Proof.Machine
end

