-- ==== Sys2Proof/Laws/Operands.lean ====
section
/-! SUPPORT. What the operand forms compute, in the terms of the rationals: the clamp and the magnitude (R110, R111), the
powers of two of binary32 (R120), and the rounding of the voltage (R146). -/

namespace Sys2Proof.Machine

/-! ## The power operand -/

theorem absQ_eq (q : Rat) : absQ q = |q| := by
  unfold absQ
  split_ifs with h
  · exact (abs_of_neg h).symm
  · exact (abs_of_nonneg (not_lt.mp h)).symm

theorem clampQ_le_one (q : Rat) : clampQ q ≤ 1 := by
  unfold clampQ; split_ifs <;> linarith

theorem neg_one_le_clampQ (q : Rat) : -1 ≤ clampQ q := by
  unfold clampQ; split_ifs <;> linarith

theorem clampQ_of_inRange (q : Rat) (h1 : -1 ≤ q) (h2 : q ≤ 1) : clampQ q = q := by
  unfold clampQ; split_ifs <;> linarith

theorem clampQ_neg (q : Rat) : clampQ (-q) = -clampQ q := by
  unfold clampQ; split_ifs <;> linarith

theorem abs_clampQ (q : Rat) : |clampQ q| = min |q| 1 := by
  unfold clampQ
  split_ifs with h1 h2
  · rw [min_eq_right]
    · simp
    · rw [abs_of_neg (by linarith)]; linarith
  · rw [min_eq_right]
    · simp
    · rw [abs_of_pos (by linarith)]; linarith
  · rw [min_eq_left]; exact abs_le.mpr ⟨by linarith, by linarith⟩

theorem clampQ_nonneg_iff (q : Rat) : 0 ≤ clampQ q ↔ 0 ≤ q := by
  unfold clampQ; split_ifs <;> constructor <;> intro _ <;> linarith

theorem magnitudeOf_eq (q : Rat) : magnitudeOf q = BitVec.ofInt 8 ⌊|q| * 255⌋ := by
  show BitVec.ofInt 8 ⌊absQ q * 255⌋ = _
  rw [absQ_eq]

/-- The floor of a clamped magnitude is a byte: nothing wraps (R111). -/
theorem magnitudeOf_toNat (q : Rat) (h : |q| ≤ 1) : ((magnitudeOf q).toNat : ℤ) = ⌊|q| * 255⌋ := by
  have a : 0 ≤ ⌊|q| * 255⌋ := Int.floor_nonneg.mpr (by positivity)
  have b := Int.floor_lt.mpr (show |q| * 255 < ((256 : ℤ) : ℚ) by push_cast; linarith)
  rw [magnitudeOf_eq, BitVec.toNat_ofInt]
  omega

/-! ## binary32 -/

theorem scaleByPow2_eq (m : Nat) (k : Int) : scaleByPow2 m k = m * (2 : ℚ) ^ k := by
  cases k with
  | ofNat n => simp [scaleByPow2]
  | negSucc n =>
    simp only [scaleByPow2, Rat.mkRat_eq_div, zpow_negSucc]; push_cast; rw [div_eq_mul_inv]

theorem pow2Le_iff (n d : Nat) (hd : 0 < d) (k : ℤ) : pow2Le n d k = true ↔ (2 : ℚ) ^ k ≤ n / d := by
  have hdq : (0 : ℚ) < d := by exact_mod_cast hd
  cases k with
  | ofNat k =>
    simp only [pow2Le, decide_eq_true_eq, Int.ofNat_eq_natCast, zpow_natCast]
    rw [le_div_iff₀ hdq, mul_comm]; norm_cast
  | negSucc k =>
    simp only [pow2Le, decide_eq_true_eq, zpow_negSucc]
    rw [inv_eq_one_div, div_le_div_iff₀ (by positivity) hdq, one_mul]; norm_cast

/-- `log2Floor` is the greatest power of two below a positive quotient. -/
theorem log2Floor_spec (n d : Nat) (hn : 0 < n) (hd : 0 < d) :
    (2 : ℚ) ^ (log2Floor n d) ≤ n / d ∧ (n : ℚ) / d < 2 ^ (log2Floor n d + 1) := by
  have hdq : (0 : ℚ) < d := by exact_mod_cast hd
  have n1 : ((2 ^ n.log2 : ℕ) : ℚ) ≤ n := by exact_mod_cast Nat.log2_self_le (by omega)
  have n2 : (n : ℚ) < ((2 ^ (n.log2 + 1) : ℕ) : ℚ) := by exact_mod_cast Nat.lt_log2_self
  have d1 : ((2 ^ d.log2 : ℕ) : ℚ) ≤ d := by exact_mod_cast Nat.log2_self_le (by omega)
  have d2 : (d : ℚ) < ((2 ^ (d.log2 + 1) : ℕ) : ℚ) := by exact_mod_cast Nat.lt_log2_self
  set A := n.log2; set B := d.log2
  have up : (n : ℚ) / d < 2 ^ ((A : ℤ) - B + 1) := by
    rw [div_lt_iff₀ hdq]
    calc (n : ℚ) < ((2 ^ (A + 1) : ℕ) : ℚ) := n2
      _ = 2 ^ ((A : ℤ) - B + 1) * ((2 ^ B : ℕ) : ℚ) := by
        push_cast; rw [← zpow_natCast (2:ℚ) B, ← zpow_add₀ (by norm_num), ← zpow_natCast]; congr 1; push_cast; ring
      _ ≤ _ := by gcongr
  have lo : (2 : ℚ) ^ ((A : ℤ) - B - 1) ≤ n / d := by
    rw [le_div_iff₀ hdq]
    calc (2 : ℚ) ^ ((A : ℤ) - B - 1) * d ≤ 2 ^ ((A : ℤ) - B - 1) * ((2 ^ (B + 1) : ℕ) : ℚ) := by gcongr
      _ = ((2 ^ A : ℕ) : ℚ) := by
        push_cast; rw [← zpow_natCast (2:ℚ) (B+1), ← zpow_add₀ (by norm_num), ← zpow_natCast]; congr 1; push_cast; ring
      _ ≤ _ := n1
  unfold log2Floor
  by_cases h : pow2Le n d ((A : ℤ) - B) = true
  · simp only [A, B] at h ⊢; rw [if_pos h]; exact ⟨(pow2Le_iff n d hd _).mp h, up⟩
  · have h' := mt (pow2Le_iff n d hd _).mpr h
    simp only [A, B] at h h' ⊢; rw [if_neg h]; refine ⟨lo, ?_⟩
    rw [sub_add_cancel]; exact not_le.mp h'

/-- `roundScaled` is `roundHalfEven` of the scaled quotient. -/
theorem roundScaled_spec (n d : Nat) (hd : 0 < d) (k : ℤ) :
    ∃ N D : Nat, 0 < D ∧ roundScaled n d k = roundHalfEven N D ∧ (N : ℚ) / D = n / d / 2 ^ k := by
  have hdq : (d : ℚ) ≠ 0 := by exact_mod_cast hd.ne'
  cases k with
  | ofNat k =>
    refine ⟨n, d * 2 ^ k, by positivity, rfl, ?_⟩
    simp only [Int.ofNat_eq_natCast, zpow_natCast]; push_cast; field_simp
  | negSucc k =>
    refine ⟨n * 2 ^ (k + 1), d, hd, rfl, ?_⟩
    simp only [zpow_negSucc]; push_cast; field_simp

end Sys2Proof.Machine
end

