-- ==== Sys2Proof/Laws/PerInstr.lean ====
section
/-! SUPPORT. What is said of every instruction as syntax, one lemma per constructor of `Instr`. -/

/-- `DEC(ENC(c)) = c` (R71). -/
theorem Sys2Proof.Cmd.dec_enc (c : Sys2Proof.Cmd) : Sys2Proof.Cmd.dec c.enc = some c := by
  cases c <;> decide

namespace Sys2Proof.Laws.Encoding

/-- The request frame of `i` is well-formed, begins with the opcode of its command, which decodes to that command and no
other (R50, R70, R71), and has the one length the command has (R63); a query has no payload (R51). -/
def Statement (i : Instr) : Prop :=
  i.wellFormed = true ∧ encode i = i.cmd.enc :: i.extra ∧ Cmd.dec i.cmd.enc = some i.cmd ∧
    i.extra.length = i.payloadLength ∧ frameLengthOk (encode i) = true ∧ (i.cmd.isQuery = true → i.extra = [])

theorem setLed (r g b : Byte) : Statement (.setLed r g b) :=
  ⟨rfl, rfl, Cmd.dec_enc _, rfl, rfl, nofun⟩

theorem getLed : Statement .getLed :=
  ⟨rfl, rfl, Cmd.dec_enc _, rfl, rfl, fun _ => rfl⟩

theorem setMotorAForward (m : Byte) : Statement (.setMotorAForward m) :=
  ⟨rfl, rfl, Cmd.dec_enc _, rfl, rfl, nofun⟩

theorem setMotorAReverse (m : Byte) : Statement (.setMotorAReverse m) :=
  ⟨rfl, rfl, Cmd.dec_enc _, rfl, rfl, nofun⟩

theorem getMotorA : Statement .getMotorA :=
  ⟨rfl, rfl, Cmd.dec_enc _, rfl, rfl, fun _ => rfl⟩

theorem setMotorBForward (m : Byte) : Statement (.setMotorBForward m) :=
  ⟨rfl, rfl, Cmd.dec_enc _, rfl, rfl, nofun⟩

theorem setMotorBReverse (m : Byte) : Statement (.setMotorBReverse m) :=
  ⟨rfl, rfl, Cmd.dec_enc _, rfl, rfl, nofun⟩

theorem getMotorB : Statement .getMotorB :=
  ⟨rfl, rfl, Cmd.dec_enc _, rfl, rfl, fun _ => rfl⟩

theorem allOff : Statement .allOff :=
  ⟨rfl, rfl, Cmd.dec_enc _, rfl, rfl, nofun⟩

theorem getDriveFaultFlagA : Statement .getDriveFaultFlagA :=
  ⟨rfl, rfl, Cmd.dec_enc _, rfl, rfl, fun _ => rfl⟩

theorem getDriveFaultFlagB : Statement .getDriveFaultFlagB :=
  ⟨rfl, rfl, Cmd.dec_enc _, rfl, rfl, fun _ => rfl⟩

theorem setMotorsForward (m : Byte) : Statement (.setMotorsForward m) :=
  ⟨rfl, rfl, Cmd.dec_enc _, rfl, rfl, nofun⟩

theorem setMotorsReverse (m : Byte) : Statement (.setMotorsReverse m) :=
  ⟨rfl, rfl, Cmd.dec_enc _, rfl, rfl, nofun⟩

theorem getBatteryVoltage : Statement .getBatteryVoltage :=
  ⟨rfl, rfl, Cmd.dec_enc _, rfl, rfl, fun _ => rfl⟩

theorem getId : Statement .getId :=
  ⟨rfl, rfl, Cmd.dec_enc _, rfl, rfl, fun _ => rfl⟩

end Sys2Proof.Laws.Encoding
end

