-- ==== Sys2Proof/Tests/Slice0.lean ====
section
/-! SUPPORT. Tests: the checks of WellFormed, words written out from the spec's encodings, one step on a small state with
what spec/95_test_vectors.md and the rules' own examples say comes of it, and for each statement with hypotheses a
witness that meets them. -/

namespace Sys2Proof.Tests

open Sys2Proof.Machine

/-! ## Small states -/

/-- A frame whose bytes above 1 are zero. -/
def fr (a b : Byte) : Frame := ⟨a, b, 0#8, 0#8, 0#8, 0#8⟩

/-- An answer `Ok` whose frame, if it is a read's, is `a b 00 00 00 00`. -/
def rd (a b : Byte) : Answer := .ok (fr a b)

/-- A write answered `Ok`. -/
def wr : Answer := .ok (fr 0#8 0#8)

/-- The request of an operation that reads only its power. -/
def req (op : OpName) (power : PowerValue := .finite 0) : Request := ⟨op, 0#8, 0#8, 0#8, .exact power⟩

/-- An idle codec with one operation presented and the transport's answers to come. -/
def given (ready : Bool) (q : Request) (answers : List Answer) : State :=
  { State.reset with ready := ready, requests := [q], answers := answers }

/-- A ready codec with the transport's answers to come. -/
def readyWith (answers : List Answer) : State := { State.reset with ready := true, answers := answers }

/-- OPEN in its third cycle, waiting for the read. -/
def midExchange (answers : List Answer) : State :=
  { State.reset with
    answers := answers, phase := .reading, cur := .getId, attempt := 3#2, txbuf := fr 0x99#8 0#8, op := some .openCodec }

/-- OPEN waiting for its `BusOpen`. -/
def midOpen (answers : List Answer) : State :=
  { State.reset with answers := answers, phase := .writing, op := some .openCodec, busOpening := true }

/-- CLOSE waiting for its write. -/
def midClose (answers : List Answer) : State :=
  { State.reset with
    answers := answers, ready := true, phase := .writing, cur := .allOff, txbuf := fr 0x0E#8 0#8, txlen := 2#3, op := some .closeCodec }

/-- The trace of a next state. -/
def traceOf : StepResult → Option (List Event)
  | .next t => some t.trace
  | _ => none

/-- The results of a next state. -/
def resultsOf : StepResult → Option (List Result)
  | .next t => some t.results
  | _ => none

/-- READY, ATTEMPT and LAST_CLOSE_FAILED of a next state. -/
def flagsOf : StepResult → Option (Bool × BitVec 2 × Bool)
  | .next t => some (t.ready, t.attempt, t.lastCloseFailed)
  | _ => none

/-! ## WellFormed: what each check refuses (R4, R35) -/

theorem test_empty_frame_refused : frameLengthOk [] = false := by decide
theorem test_seven_bytes_refused : frameLengthOk [1#8, 2#8, 3#8, 4#8, 5#8, 6#8, 7#8] = false := by decide
theorem test_six_bytes_allowed : frameLengthOk [1#8, 2#8, 3#8, 4#8, 5#8, 6#8] = true := by decide
theorem test_unassigned_opcode_refused : decode [0x13#8] = .error (.unassignedOpcode 0x13#8) := by decide
theorem test_short_led_refused : decode [0x01#8, 1#8, 2#8] = .error (.tooShort .setLed) := by decide
theorem test_short_motor_refused : decode [0x0B#8] = .error (.tooShort .setMotorBForward) := by decide
theorem test_pad_refused : decode [0x0E#8, 0x01#8] = .error (.padNotZero 0x01#8) := by decide
theorem test_no_bytes_refused : decode [] = .error .empty := by decide

/-! ## Words written out bit by bit from the frame patterns of spec/opcode_table.json -/

theorem test_decode_SetLed :
    decode [0b00000001#8, 0b11111111#8, 0b10000000#8, 0b00000000#8] = .ok (.setLed 0xFF#8 0x80#8 0x00#8, []) := by decide
theorem test_decode_GetLed : decode [0b00000010#8] = .ok (.getLed, []) := by decide
theorem test_decode_SetMotorAForward : decode [0b00001000#8, 0b10111111#8] = .ok (.setMotorAForward 0xBF#8, []) := by decide
theorem test_decode_SetMotorAReverse : decode [0b00001001#8, 0b01111111#8] = .ok (.setMotorAReverse 0x7F#8, []) := by decide
theorem test_decode_GetMotorA : decode [0b00001010#8] = .ok (.getMotorA, []) := by decide
theorem test_decode_SetMotorBForward : decode [0b00001011#8, 0b00111111#8] = .ok (.setMotorBForward 0x3F#8, []) := by decide
theorem test_decode_SetMotorBReverse : decode [0b00001100#8, 0b11111111#8] = .ok (.setMotorBReverse 0xFF#8, []) := by decide
theorem test_decode_GetMotorB : decode [0b00001101#8] = .ok (.getMotorB, []) := by decide
theorem test_decode_AllOff : decode [0b00001110#8, 0b00000000#8] = .ok (.allOff, []) := by decide
theorem test_decode_GetDriveFaultFlagA : decode [0b00001111#8] = .ok (.getDriveFaultFlagA, []) := by decide
theorem test_decode_GetDriveFaultFlagB : decode [0b00010000#8] = .ok (.getDriveFaultFlagB, []) := by decide
theorem test_decode_SetMotorsForward : decode [0b00010001#8, 0b10011001#8] = .ok (.setMotorsForward 0x99#8, []) := by decide
theorem test_decode_SetMotorsReverse : decode [0b00010010#8, 0b11111111#8] = .ok (.setMotorsReverse 0xFF#8, []) := by decide
theorem test_decode_GetBatteryVoltage : decode [0b00010101#8] = .ok (.getBatteryVoltage, []) := by decide
theorem test_decode_GetId : decode [0b10011001#8] = .ok (.getId, []) := by decide

/-- The first byte of a table word is its bits 7 to 0. -/
theorem test_table_word : decodeTableWord 32 0x30201001 = some (.setLed 0x10#8 0x20#8 0x30#8) := by decide
theorem test_table_word_without_operand : decodeTableWord 8 0x12 = some (.setMotorsReverse 0#8) := by decide
theorem test_table_word_unassigned : decodeTableWord 8 0x03 = none := by decide
theorem test_fetch_word_runs : ∃ t, step (State.reset.withFetchWord 8 0x99) = .next t ∧ t.cur = .getId ∧ t.phase = .writing :=
  ⟨_, rfl, rfl, rfl⟩

/-- spec/95_test_vectors.md 2.1: the lookup port. -/
theorem test_lookup : lookup (.enc 13#4) = .opcode 0x15#8 ∧ lookup (.enc 15#4) = .invalid ∧ lookup (.dec 0x99#8) = .command 14#4 ∧
    lookup (.dec 0x98#8) = .invalid ∧ lookup (.name 8#4) = .text "AllOff" := by decide

/-! ## Commands that only write (spec/95_test_vectors.md 2.3 to 2.5, spec/40_catalog.md's examples) -/

/-- R73: `set_led(0x10, 0x20, 0x30)` writes `01 10 20 30`. -/
theorem test_SetLed : traceOf (exec (.setLed 0x10#8 0x20#8 0x30#8) (readyWith [wr])) =
    some [.write [0x01#8, 0x10#8, 0x20#8, 0x30#8] true] := by decide
/-- 2.5: opcode-like values are data. -/
theorem test_SetLed_data : traceOf (exec (.setLed 0x99#8 0x15#8 0x0E#8) (readyWith [.fail])) =
    some [.write [0x01#8, 0x99#8, 0x15#8, 0x0E#8] false] := by decide
/-- R75's example. -/
theorem test_SetMotorAForward : traceOf (exec (.setMotorAForward 0xFF#8) (readyWith [wr])) =
    some [.write [0x08#8, 0xFF#8] true] := by decide
/-- R76's example. -/
theorem test_SetMotorAReverse : traceOf (exec (.setMotorAReverse 0x7F#8) (readyWith [wr])) =
    some [.write [0x09#8, 0x7F#8] true] := by decide
/-- R78's example. -/
theorem test_SetMotorBForward : traceOf (exec (.setMotorBForward 0x3F#8) (readyWith [wr])) =
    some [.write [0x0B#8, 0x3F#8] true] := by decide
/-- R79's example. -/
theorem test_SetMotorBReverse : traceOf (exec (.setMotorBReverse 0xFF#8) (readyWith [wr])) =
    some [.write [0x0C#8, 0xFF#8] true] := by decide
/-- R84's example. -/
theorem test_SetMotorsForward : traceOf (exec (.setMotorsForward 0x7F#8) (readyWith [wr])) =
    some [.write [0x11#8, 0x7F#8] true] := by decide
/-- R85's example. -/
theorem test_SetMotorsReverse : traceOf (exec (.setMotorsReverse 0xFF#8) (readyWith [wr])) =
    some [.write [0x12#8, 0xFF#8] true] := by decide
/-- V-STOP-2: a failed stop is surfaced and READY stays. -/
theorem test_AllOff_stop : resultsOf (step (given true (req .stop) [.fail])) = some [.err .ioError] ∧
    flagsOf (step (given true (req .stop) [.fail])) = some (true, 0#2, false) := by decide
/-- V-CLOSE-2: a failed teardown is swallowed and recorded. -/
theorem test_AllOff_close : resultsOf (step (given true (req .closeCodec) [.fail])) = some [.ok] ∧
    flagsOf (step (given true (req .closeCodec) [.fail])) = some (false, 0#2, true) := by decide

/-! ## Queries (spec/95_test_vectors.md 2.3, 2.6 to 2.8) -/

/-- S5: wrong twice, right on the third cycle. -/
theorem test_GetDriveFaultFlagA :
    traceOf (exec .getDriveFaultFlagA (readyWith [wr, rd 0x00#8 0#8, wr, rd 0x10#8 1#8, wr, rd 0x0F#8 0#8])) =
      some [.write [0x0F#8] true, .read (some (fr 0x00#8 0#8)), .write [0x0F#8] true, .read (some (fr 0x10#8 1#8)),
        .write [0x0F#8] true, .read (some (fr 0x0F#8 0#8))] ∧
    resultsOf (exec .getDriveFaultFlagA (readyWith [wr, rd 0x00#8 0#8, wr, rd 0x10#8 1#8, wr, rd 0x0F#8 0#8])) =
      some [.okBool false] := by decide
/-- S8: any non-zero byte is a fault. -/
theorem test_GetDriveFaultFlagA_set :
    resultsOf (exec .getDriveFaultFlagA (readyWith [wr, rd 0x0F#8 0x80#8])) = some [.okBool true] := by decide
/-- V-EX-2. -/
theorem test_GetDriveFaultFlagB :
    resultsOf (exec .getDriveFaultFlagB (readyWith [wr, rd 0x0F#8 1#8, wr, rd 0x10#8 1#8])) = some [.okBool true] ∧
    flagsOf (exec .getDriveFaultFlagB (readyWith [wr, rd 0x0F#8 1#8, wr, rd 0x10#8 1#8])) = some (true, 2#2, false) := by
  decide
/-- V-EX-5: an IoError on cycle 3 wins over the EchoMismatch. -/
theorem test_GetBatteryVoltage :
    resultsOf (exec .getBatteryVoltage (readyWith [wr, rd 0#8 0#8, wr, rd 0#8 0#8, .fail])) = some [.err .ioError] ∧
    flagsOf (exec .getBatteryVoltage (readyWith [wr, rd 0#8 0#8, wr, rd 0#8 0#8, .fail])) = some (true, 3#2, false) := by
  decide
/-- V-OPEN-3. -/
theorem test_GetId : traceOf (step (given false (req .openCodec) [wr, wr, rd 0#8 0#8, wr, rd 0x99#8 0x15#8])) =
      some [.busOpen true, .write [0x99#8] true, .read (some (fr 0#8 0#8)), .write [0x99#8] true,
        .read (some (fr 0x99#8 0x15#8))] ∧
    flagsOf (step (given false (req .openCodec) [wr, wr, rd 0#8 0#8, wr, rd 0x99#8 0x15#8])) = some (true, 2#2, false) := by
  decide
/-- V-OPEN-4: another identifier, one cycle only. -/
theorem test_GetId_other : resultsOf (step (given false (req .openCodec) [wr, wr, rd 0x99#8 0x16#8, wr])) =
      some [.err .unexpectedDevice] ∧
    flagsOf (step (given false (req .openCodec) [wr, wr, rd 0x99#8 0x16#8, wr])) = some (false, 1#2, false) := by decide
/-- R74: a frame whose byte 0 is 0x02 passes the echo check. -/
theorem test_GetLed : traceOf (exec .getLed (readyWith [wr, rd 0x02#8 7#8])) =
    some [.write [0x02#8] true, .read (some (fr 0x02#8 7#8))] := by decide
/-- R77, R94. -/
theorem test_GetMotorA : resultsOf (exec .getMotorA (readyWith [wr, rd 0x0D#8 0#8, wr, rd 0#8 0#8, wr, rd 1#8 0#8, wr])) =
    some [.err (.echoMismatch .getMotorA)] := by decide
/-- R80, R95. -/
theorem test_GetMotorB : traceOf (exec .getMotorB (readyWith [wr, .fail, wr])) =
    some [.write [0x0D#8] true, .read none] := by decide

/-! ## Operations turned away (spec/95_test_vectors.md 2.8), operands and formats, the text form (R65) -/

/-- V-NR-4: the lifecycle check comes first; V-NAN-1. -/
theorem test_turned_away : resultsOf (step (given false (req .setMotors .nan) [])) = some [.refused .notReady] ∧
    resultsOf (step (given true (req .setMotorB .nan) [])) = some [.refused .badOperand] ∧
    resultsOf (step (given true (req .openCodec) [])) = some [.refused .alreadyOpen] := by decide

/-- What each motor operation writes for a power. -/
def writes (p : Power) : List (Option (List Event)) :=
  [traceOf (step (given true ⟨.setMotorA, 0#8, 0#8, 0#8, p⟩ [wr])),
    traceOf (step (given true ⟨.setMotorB, 0#8, 0#8, 0#8, p⟩ [wr])),
    traceOf (step (given true ⟨.setMotors, 0#8, 0#8, 0#8, p⟩ [wr]))]

/-- 2.4: 1/2 truncates; -1/510 is Reverse with magnitude 0; -3 is clamped; 0x3F19999A is 0.6; 0xBE4CCCCD is -0.2; just
below 254/255. 2.7: the voltage of 258 raw, high byte first, and two patterns of the default format. -/
theorem test_marshalling :
    writes (.exact (.finite (1 / 2))) = [some [.write [0x08#8, 0x7F#8] true], some [.write [0x0B#8, 0x7F#8] true],
      some [.write [0x11#8, 0x7F#8] true]] ∧
    writes (.exact (.finite (-1 / 510))) = [some [.write [0x09#8, 0x00#8] true], some [.write [0x0C#8, 0x00#8] true],
      some [.write [0x12#8, 0x00#8] true]] ∧
    writes (.exact (.finite (-3))) = [some [.write [0x09#8, 0xFF#8] true], some [.write [0x0C#8, 0xFF#8] true],
      some [.write [0x12#8, 0xFF#8] true]] ∧
    writes (.binary32 0x3F19999A#32) = [some [.write [0x08#8, 0x99#8] true], some [.write [0x0B#8, 0x99#8] true],
      some [.write [0x11#8, 0x99#8] true]] ∧
    writes (.binary32 0xBE4CCCCD#32) = [some [.write [0x09#8, 0x33#8] true], some [.write [0x0C#8, 0x33#8] true],
      some [.write [0x12#8, 0x33#8] true]] ∧
    magnitudeByte (binary32Value 0x3F7EFEFE#32) = some 0xFD#8 ∧ magnitudeByte (binary32Value 0x3F7EFEFF#32) = some 0xFE#8 ∧
    resultsOf (exec .getBatteryVoltage (readyWith [wr, .ok ⟨0x15#8, 1#8, 2#8, 0#8, 0#8, 0#8⟩])) =
      some [.okVolts (1419 / 155)] ∧
    toBinary32 (voltsOf 1#16) = 0x3D115789#32 ∧ toBinary32 (voltsOf 65283#16) = 0x4510C7E6#32 ∧
    traceText [.busOpen false, .write [0x0E#8, 0x00#8] false, .read none] = "OPEN! W[0E 00]! R!" := by
  decide +kernel

/-! ## A witness for the hypotheses of each statement -/

/-- Cycles that fail the echo check of every command, as byte 0 is no opcode (2.2). -/
def bad2 : List (Frame × Frame) := [(fr 0#8 0#8, fr 0#8 0#8), (fr 0#8 0#8, fr 0x03#8 0x15#8)]

/-- Three such cycles. -/
def bad3 : List (Frame × Frame) := (fr 0#8 0#8, fr 0x13#8 0#8) :: bad2

theorem bad2_mismatch (c : Cmd) : AllMismatch c bad2 := by
  cases c <;> simp [AllMismatch, bad2, fr, Cmd.enc]

theorem bad3_mismatch (c : Cmd) : AllMismatch c bad3 := by
  cases c <;> simp [AllMismatch, bad3, bad2, fr, Cmd.enc]

/-- The invariant, outside its boundary cases: in the last cycle of the handshake, in the bus opening, in the teardown. -/
theorem witness_inv_midExchange (answers : List Answer) : Inv (midExchange answers) := by
  refine ⟨?_, ?_, rfl, nofun, nofun, fun _ => rfl, fun _ _ => ⟨.getId, rfl, rfl⟩, ?_, ?_, ?_⟩ <;>
    simp [midExchange, State.reset, Config.N, OpName.issues]

theorem witness_inv_midOpen (answers : List Answer) : Inv (midOpen answers) := by
  refine ⟨?_, ?_, rfl, nofun, fun _ => ⟨rfl, rfl⟩, nofun, nofun, nofun, nofun, ?_⟩ <;>
    simp [midOpen, State.reset, Config.N]

theorem witness_inv_midClose (answers : List Answer) : Inv (midClose answers) := by
  refine ⟨?_, ?_, rfl, nofun, nofun, nofun, fun _ _ => ⟨.allOff, rfl, rfl⟩, nofun, ?_, ?_⟩ <;>
    simp [midClose, State.reset, Config.N, OpName.issues]

theorem witness_inv_midStop : Inv { midClose [wr] with op := some .stop } := by
  refine ⟨?_, ?_, rfl, nofun, nofun, nofun, fun _ _ => ⟨.allOff, rfl, rfl⟩, nofun, ?_, ?_⟩ <;>
    simp [midClose, State.reset, Config.N, OpName.issues]

theorem witness_inv_idle (q : Request) (answers : List Answer) : Inv (given false q answers) := by
  refine ⟨?_, ?_, rfl, fun _ => rfl, nofun, nofun, nofun, nofun, nofun, nofun⟩ <;> simp [given, State.reset, Config.N]

theorem witness_EncoderIsThePrintedTable : Cmd.getId.enc = Cmd.getId.enc := rfl
theorem witness_DecoderInvertsTheEncoder : Cmd.dec 0x13#8 = none ∧ Cmd.dec 0x99#8 = some .getId := by decide
theorem witness_StepRunsTheDecodedInstruction :
    ∃ (s : State) (f : Frame) (rest : List Byte),
      s.phase = .idle ∧ s.slot = some f ∧ decode f.toList = .ok (.getId, rest) :=
  ⟨State.reset.withSlot (fr 0x99#8 0#8), _, _, rfl, rfl, rfl⟩
theorem witness_FetchWordIsWhatRuns : decodeTableWord 16 0xFF08 = some (.setMotorAForward 0xFF#8) := by decide
theorem witness_StepAcceptsTheOldestRequest :
    (given true (req .stop) []).phase = .idle ∧ (given true (req .stop) []).slot = none ∧
      (given true (req .stop) []).requests = [req .stop] ∧ State.reset.phase = .idle ∧ State.reset.slot = none ∧
      State.reset.requests = [] := ⟨rfl, rfl, rfl, rfl, rfl, rfl⟩
theorem witness_OperationsAreHeldWhileOneRuns :
    (midExchange []).phase ≠ .idle ∧ (midExchange []).answers = [] ∧
      ∃ t, step { midExchange [rd 0x99#8 0x15#8] with requests := [req .stop] } = .next t :=
  ⟨nofun, rfl, _, rfl⟩
theorem witness_OnlyAForeignFrameStopsTheMachine :
    step (State.reset.withSlot (fr 0x13#8 0#8)) = .fault (.notARequestFrame (.unassignedOpcode 0x13#8)) := rfl
theorem witness_UnassignedOpcodesAreNoCommand : Cmd.dec 0x00#8 = none ∧ (0x01#8 : Byte) ≠ 0x00#8 := by decide
theorem witness_WritesAndTheirAnswers :
    (readyWith [.fail]).answers = .fail :: [] ∧ (readyWith [wr, .fail]).answers = wr :: [.fail] ∧
      (readyWith [wr]).op ≠ some .closeCodec ∧ State.reset.answers = [] ∧ (Instr.allOff).cmd.isQuery = false :=
  ⟨rfl, rfl, nofun, rfl, rfl⟩
/-- FaultQueriesAnswerTheFlag, BatteryQueryAnswersTheVoltage, HandshakeChecksTheIdentifier and
UnissuedQueriesReturnTheFrame, for every query, with no failed cycle and with two. -/
theorem witness_ValidFrames (c : Cmd) (b : Byte) :
    ([] : List (Frame × Frame)).length ≤ 2 ∧ AllMismatch c [] ∧ bad2.length ≤ 2 ∧ AllMismatch c bad2 ∧
      (fr c.enc b).b0 = c.enc ∧ (fr c.enc b).b1 = b ∧
      (readyWith (cycleAnswers bad2 ++ [wr, .ok (fr c.enc b)])).answers = cycleAnswers bad2 ++ .ok (fr 0#8 0#8) :: .ok (fr c.enc b) :: [] :=
  ⟨by decide, nofun, by decide, bad2_mismatch c, rfl, rfl, rfl⟩
theorem witness_HandshakeIdentifiers : (fr 0x99#8 0x15#8).b1 = 0x15#8 ∧ (fr 0x99#8 0x16#8).b1 ≠ 0x15#8 := by decide
/-- EchoMismatchAfterThreeCycles, FailedWriteEndsTheExchange, FailedReadEndsTheExchange, QueriesWaitForTheTransport. -/
theorem witness_ExchangesThatFail :
    (Instr.getBatteryVoltage).cmd.isQuery = true ∧ bad3.length = 3 ∧ AllMismatch .getBatteryVoltage bad3 ∧
      (readyWith (cycleAnswers bad3)).answers = cycleAnswers bad3 ++ [] ∧
      (readyWith (cycleAnswers bad2 ++ [.fail])).answers = cycleAnswers bad2 ++ .fail :: [] ∧
      (readyWith (cycleAnswers bad2 ++ [wr, .fail])).answers = cycleAnswers bad2 ++ .ok (fr 0#8 0#8) :: .fail :: [] ∧
      (readyWith (cycleAnswers bad2)).answers = cycleAnswers bad2 ∧
      (readyWith (cycleAnswers bad2 ++ [wr])).answers = cycleAnswers bad2 ++ [.ok (fr 0#8 0#8)] :=
  ⟨rfl, rfl, bad3_mismatch _, rfl, rfl, rfl, rfl, rfl⟩
theorem witness_ExchangeCountingLaws :
    ∃ t, exec .getBatteryVoltage (readyWith (cycleAnswers bad3)) = .next t ∧ t.phase = .idle := ⟨_, rfl, rfl⟩
theorem witness_OverlongFramesAreRefused : Config.N < 1 + [1#8, 2#8, 3#8, 4#8, 5#8, (6#8 : Byte)].length := by decide
theorem witness_EchoCheckLooksAtByteZero :
    (fr 0x0F#8 0#8).b0 = Cmd.getDriveFaultFlagA.enc ∧ Cmd.getDriveFaultFlagB ≠ .getDriveFaultFlagA ∧
      Cmd.dec (fr 0x03#8 0#8).b0 = none ∧ (fr 1#8 2#8).b0 = (fr 1#8 3#8).b0 := by decide
theorem witness_PayloadBytes :
    (fr 0#8 7#8).b1 = (fr 1#8 7#8).b1 ∧ (⟨0x15#8, 3#8, 0xFF#8, 1#8, 2#8, 3#8⟩ : Frame).b2 = 0xFF#8 ∧ 0#16 < 1#16 := by decide
/-- ClampLandsInRange, MagnitudeByteTruncates and DirectionIsTheSign, at the ends of each range. -/
theorem witness_PowerOperands :
    clamp .posInf = some 1 ∧ (|(1 / 256 : Rat)| < 1 / 255) ∧ (255 : Nat) ≤ 255 ∧ (|(-1 / 2 : Rat)| ≤ |(1 / 2 : Rat)|) ∧
      (-1 / 255 : Rat) < -1 / 510 ∧ (-1 / 510 : Rat) < 0 ∧ (∃ m, magnitudeByte (.finite (-1 / 2)) = some m) := by
  refine ⟨rfl, ?_, le_rfl, ?_, by norm_num, by norm_num, _, rfl⟩
  · rw [abs_of_pos] <;> norm_num
  · rw [abs_of_neg, abs_of_pos] <;> norm_num
/-- Each exponent case of R120: a NaN, an infinity, a subnormal, the least and the greatest normal number. -/
theorem witness_DefaultPowerFormatIsBinary32 :
    ((0x7FC00000#32).extractLsb' 23 8).toNat = 255 ∧ ((0x7FC00000#32).extractLsb' 0 23).toNat ≠ 0 ∧
      ((0xFF800000#32).extractLsb' 23 8).toNat = 255 ∧ ((0xFF800000#32).extractLsb' 0 23).toNat = 0 ∧
      ((0x00000001#32).extractLsb' 23 8).toNat = 0 ∧ ((0x00800000#32).extractLsb' 23 8).toNat = 1 ∧
      ((0x7F7FFFFF#32).extractLsb' 23 8).toNat = 254 := by decide
theorem witness_VoltageFormatRoundsToNearestEven : ∃ x, binary32Value 0x3F000000#32 = .finite x := ⟨_, rfl⟩
theorem witness_Operations :
    (req .stop).op ≠ .openCodec ∧ (req .stop).op ≠ .closeCodec ∧ State.reset.ready = false ∧
      (req .openCodec).op = .openCodec ∧ (readyWith []).ready = true ∧ (given false (req .openCodec) [.fail]).answers = [.fail] ∧
      (req .closeCodec).op = .closeCodec ∧ (∃ t, accept (req .openCodec) State.reset = .next t) ∧
      (∃ t, accept (req .closeCodec) State.reset = .next t) ∧ (∃ t, accept (req .openCodec) (readyWith []) = .next t) :=
  ⟨nofun, nofun, rfl, rfl, rfl, rfl, rfl, ⟨_, rfl⟩, ⟨_, rfl⟩, ⟨_, rfl⟩⟩
theorem witness_FailedBusOpenIsTransportUnavailable :
    ∃ t, accept (req .openCodec) { State.reset with answers := [.fail] } = .next t ∧
      t.results = State.reset.results ++ [.err .transportUnavailable] := ⟨_, rfl, rfl⟩
/-- The clauses of FailedBusOpenIsTransportUnavailable about a step: the answer comes later, or with the acceptance. -/
theorem witness_FailedBusOpenInAStep :
    (∃ t, (midOpen [.fail]).phase = .writing ∧ (midOpen [.fail]).busOpening = true ∧ (midOpen [.fail]).answers = .fail :: [] ∧
      Inv (midOpen [.fail]) ∧ step (midOpen [.fail]) = .next t ∧
      t.results = (midOpen [.fail]).results ++ [.err .transportUnavailable]) ∧
    ∃ s t, Inv s ∧ s.phase = .idle ∧ step s = .next t ∧ t.results = s.results ++ [.err .transportUnavailable] :=
  ⟨⟨_, rfl, rfl, rfl, witness_inv_midOpen _, rfl, rfl⟩,
    given false (req .openCodec) [.fail], _, witness_inv_idle _ _, rfl, rfl, rfl⟩
theorem witness_StatusCodesAreThePrintedOnes : ∀ c, Result.err .ioError ≠ .err (.echoMismatch c) := nofun
theorem witness_PlainOperations :
    (req .setLed).op = .setLed ∧ (req .stop).op = .stop ∧ (req .getDriveFaultA).op = .getDriveFaultA ∧
      (req .getDriveFaultB).op = .getDriveFaultB ∧ (req .getBatteryVoltage).op = .getBatteryVoltage := ⟨rfl, rfl, rfl, rfl, rfl⟩
theorem witness_MotorOperationsMarshalTheirPower :
    (req .setMotorA .nan).power.value = .nan ∧ (req .setMotorB .nan).op = .setMotorB ∧ (req .setMotors .nan).op = .setMotors ∧
      (req .setMotorA .nan).op = .setMotorA ∧ forward (req .setMotorA .negInf).power.value = some false ∧
      forward (req .setMotorA .posInf).power.value = some true ∧ (∃ m, magnitudeByte (req .setMotorA .negInf).power.value = some m) ∧
      ∃ m, magnitudeByte (req .setMotorA .posInf).power.value = some m := by
  refine ⟨rfl, rfl, rfl, rfl, ?_, ?_, ⟨_, rfl⟩, ⟨_, rfl⟩⟩ <;> simp [req, Power.value, forward, clamp]
/-- R121: the pair and its answer, and a step of a set operation that was waiting for its write. -/
theorem witness_SetOperations :
    OpName.setMotorA.motorPair = some (.setMotorAForward, .setMotorAReverse) ∧ (req .setMotorA .negInf).power.value ≠ .nan ∧
      (given true (req .setMotorA .negInf) [.fail]).answers = [.fail] ∧
      ∃ s t, Inv s ∧ HostDriven s ∧ s.phase ≠ .idle ∧ OpName.stop.isSet = true ∧ WorksOn s .stop ∧ step s = .next t ∧
        t.trace = s.trace ++ [.write [0x0E#8, 0x00#8] true] :=
  ⟨rfl, nofun, rfl, { midClose [wr] with op := some .stop }, _, witness_inv_midStop, ⟨rfl, nofun⟩, nofun, rfl,
    .inl ⟨nofun, rfl⟩, rfl, rfl⟩
/-- R121 (d), (e) at a negative power smaller than a step of the magnitude: Reverse, with byte 0. -/
theorem test_smallNegativePower :
    traceOf (accept (req .setMotorB (.finite (-1 / 510))) (readyWith [wr])) = some [.write [0x0C#8, 0x00#8] true] := by
  decide +kernel
/-- EveryStepKeepsInv, OneEventPerAnswer, ExactlyOneResultPerOperation and the first clause of
ReadyChangesOnlyInTheLifecycle: the handshake's last read. -/
theorem witness_HandshakeEnds :
    ∃ s t, Inv s ∧ step s = .next t ∧ s.ready = false ∧ t.ready = true :=
  ⟨midExchange [rd 0x99#8 0x15#8], _, witness_inv_midExchange _, rfl, rfl, rfl⟩
/-- The second clause of ReadyChangesOnlyInTheLifecycle, and OnlyTeardownWritesLastCloseFailed. -/
theorem witness_TeardownEnds :
    ∃ s t, Inv s ∧ step s = .next t ∧ s.ready = true ∧ t.ready = false ∧ t.lastCloseFailed ≠ s.lastCloseFailed :=
  ⟨midClose [.fail], _, witness_inv_midClose _, rfl, rfl, rfl, nofun⟩
/-- EveryInputKeepsInv, EveryStepKeepsHostDriven and UninitializedCodecWritesOnlyGetId: OPEN's bus opening is answered. -/
theorem witness_UninitializedCodecWritesOnlyGetId :
    ∃ s t es, Inv s ∧ HostDriven s ∧ s.ready = false ∧ step s = .next t ∧ t.trace = s.trace ++ es ∧
      Event.write [0x99#8] true ∈ es :=
  ⟨midOpen [wr, wr], _, [.busOpen true, .write [0x99#8] true], witness_inv_midOpen _, ⟨rfl, nofun⟩, rfl, rfl, rfl, by simp⟩
theorem witness_ErrorsKeepReady :
    ∃ s t, step s = .next t ∧ t.results = s.results ++ [.err .ioError] := ⟨midExchange [.fail], _, rfl, rfl⟩
theorem witness_RefusalsChangeNothing :
    ∃ t, accept (req .stop) State.reset = .next t ∧ t.results = State.reset.results ++ [.refused .notReady] := ⟨_, rfl, rfl⟩
/-- Two idle codecs that differ in every register but READY. -/
theorem witness_OnlyReadyMattersBetweenOperations :
    ∃ s s' t t' : State, s.phase = .idle ∧ s'.phase = .idle ∧ s.slot = none ∧ s'.slot = none ∧ s.ready = s'.ready ∧
      s.requests = s'.requests ∧ s.answers = s'.answers ∧ s.cur ≠ s'.cur ∧ s.rxbuf ≠ s'.rxbuf ∧
      step s = .next t ∧ step s' = .next t' :=
  ⟨given true (req .stop) [wr],
    { given true (req .stop) [wr] with cur := .getId, attempt := 3#2, rxbuf := fr 1#8 1#8, lastCloseFailed := true },
    _, _, rfl, rfl, rfl, rfl, rfl, rfl, rfl, nofun, by decide, rfl, rfl⟩
/-- Both clauses: with its answer the read ends the operation, without it the codec waits. -/
theorem witness_LateAnswersMakeNoDifference :
    ∃ s, Inv s ∧ (∃ t, step { s with answers := [rd 0x99#8 0x15#8] } = .next t ∧ t.phase = .idle) ∧
      ∃ t, step { s with answers := [] } = .next t ∧ t.phase ≠ .idle :=
  ⟨midExchange [], witness_inv_midExchange _, ⟨_, rfl, rfl⟩, _, rfl, nofun⟩
theorem witness_ReachableStatesAreLawful : Reachable ((State.reset.receive (.run (.present (req .openCodec)))).receive .reset) :=
  .receive _ (.receive _ .reset)

/-- The inputs of an OPEN that succeeds. -/
def opens : List RunInput := [.answer wr, .answer wr, .answer (rd 0x99#8 0x15#8), .present (req .openCodec)]

/-- The inputs of an OPEN that succeeds and a CLOSE whose write fails. -/
def opensAndCloses : List RunInput := opens ++ [.answer .fail, .present (req .closeCodec)]

/-- R230: a run that opened and closed has ended well; V-CLOSE-2, its teardown write may have failed. -/
theorem witness_ARunEndsWell :
    ∃ s, EndedWell [req .openCodec, req .closeCodec] s ∧ SuccessfulOpenAt [req .openCodec, req .closeCodec] s 0 :=
  ⟨_, ⟨HostRun.ofInputs opensAndCloses rfl, rfl, rfl, rfl⟩,
    ⟨_, rfl, rfl⟩, rfl⟩

/-- R230: a run that opened and did not close has stopped with its duty unmet. -/
theorem witness_ARunStopsWithoutClose :
    ∃ s, TeardownDutyUnmet [req .openCodec] s ∧ s.phase = .idle ∧ s.requests = [] ∧
      SuccessfulOpenAt [req .openCodec] s 0 ∧ step s = .next s :=
  ⟨_, ⟨HostRun.ofInputs opens rfl, rfl⟩, rfl, rfl, ⟨⟨_, rfl, rfl⟩, rfl⟩, rfl⟩

/-- R224: a run whose OPEN is never answered is stuck. -/
theorem witness_ARunIsStuck : ∃ s, HostRun [req .openCodec] s ∧ Stuck s :=
  ⟨_, HostRun.ofInputs [.present (req .openCodec)] rfl, nofun, rfl⟩

end Sys2Proof.Tests
end

section
/-! SUPPORT. The request frame of an arbitrary instruction, from the one lemma per constructor of Laws/PerInstr. -/

namespace Sys2Proof.Laws.Encoding

/-- What Laws/PerInstr says constructor by constructor holds of every instruction. -/
theorem statement_of_instr : ∀ i : Instr, Statement i
  | .setLed r g b => setLed r g b
  | .getLed => getLed
  | .setMotorAForward m => setMotorAForward m
  | .setMotorAReverse m => setMotorAReverse m
  | .getMotorA => getMotorA
  | .setMotorBForward m => setMotorBForward m
  | .setMotorBReverse m => setMotorBReverse m
  | .getMotorB => getMotorB
  | .allOff => allOff
  | .getDriveFaultFlagA => getDriveFaultFlagA
  | .getDriveFaultFlagB => getDriveFaultFlagB
  | .setMotorsForward m => setMotorsForward m
  | .setMotorsReverse m => setMotorsReverse m
  | .getBatteryVoltage => getBatteryVoltage
  | .getId => getId

end Sys2Proof.Laws.Encoding

namespace Sys2Proof

/-- The frame is the opcode and the payload (R50), so its length is one more than the payload's. -/
theorem encode_length (i : Instr) : (encode i).length = 1 + i.payloadLength := by
  obtain ⟨-, hencode, -, hpayload, -, -⟩ := Laws.Encoding.statement_of_instr i
  rw [hencode, List.length_cons, hpayload, Nat.add_comm]

/-- The three request formats REQ1, REQ2 and REQ4 (R51 to R53). -/
theorem Instr.payloadLength_cases (i : Instr) :
    i.payloadLength = 0 ∨ i.payloadLength = 1 ∨ i.payloadLength = 3 := by
  cases i <;> simp [Instr.payloadLength]

theorem encode_length_cases (i : Instr) :
    (encode i).length = 1 ∨ (encode i).length = 2 ∨ (encode i).length = 4 := by
  have hformat := i.payloadLength_cases
  rw [encode_length]
  omega

/-- Settles O5: the checks and the head byte are those of Laws/PerInstr, the length is the format's. -/
theorem requestFramesFitTheBus : Obligations.RequestFramesFitTheBus := by
  intro i
  obtain ⟨hwf, hencode, -, -, hfits, -⟩ := Laws.Encoding.statement_of_instr i
  exact ⟨hwf, hfits, encode_length i, encode_length_cases i, by rw [hencode, List.head?_cons]⟩

end Sys2Proof
end

section
/-! SUPPORT. The step in IDLE (R14, R23): which instruction or operation it runs. -/

namespace Sys2Proof.Machine

/-- Settles O6, by the definition of the step in IDLE. -/
theorem stepRunsTheDecodedInstruction : Obligations.StepRunsTheDecodedInstruction := by
  intro s f i rest hphase hslot hdecode
  rw [step_idle s hphase]
  simp only [startNext, hslot, runSlot, hdecode]

/-- A table word is read as the frame `withFetchWord` puts in the slot. -/
theorem decode_frameOfTableWord {nbits w : Nat} {i : Instr} (h : decodeTableWord nbits w = some i) :
    ∃ rest, decode (frameOfTableWord nbits w).toList = .ok (i, rest) := by
  unfold decodeTableWord at h
  split at h
  · next j rest hdecode => cases h; exact ⟨rest, hdecode⟩
  · cases h

/-- Settles O7: `withFetchWord` fills the slot in IDLE, so the step is that of O6. -/
theorem fetchWordIsWhatRuns : Obligations.FetchWordIsWhatRuns := by
  intro s nbits w i h
  obtain ⟨rest, hdecode⟩ := decode_frameOfTableWord h
  exact stepRunsTheDecodedInstruction (s.withFetchWord nbits w) _ i rest rfl rfl hdecode

theorem step_accepts {s : State} {q : Request} {rest : List Request} (hphase : s.phase = .idle)
    (hslot : s.slot = none) (hrequests : s.requests = q :: rest) :
    step s = accept q { s with requests := rest } := by
  rw [step_idle s hphase]
  simp only [startNext, hslot, hrequests]

theorem step_nothingPresented {s : State} (hphase : s.phase = .idle) (hslot : s.slot = none)
    (hrequests : s.requests = []) : step s = .next s := by
  rw [step_idle s hphase]
  simp only [startNext, hslot, hrequests]

/-- Settles O8, by the definition of the step in IDLE with an empty slot. -/
theorem stepAcceptsTheOldestRequest : Obligations.StepAcceptsTheOldestRequest :=
  ⟨fun _ _ _ => step_accepts, fun _ => step_nothingPresented⟩

/-- Settles O43: the registers by the definition of reset, and nothing is presented to it. -/
theorem resetIsUninitialized : Obligations.ResetIsUninitialized :=
  ⟨rfl, rfl, rfl, rfl, rfl, step_nothingPresented rfl rfl rfl⟩

end Sys2Proof.Machine
end

section
/-! SUPPORT. What a step keeps of the request side and the slot (R14, R11), and that it waits for the transport (R224). -/

namespace Sys2Proof.Machine

/-- While an operation runs a step takes nothing from the request side and leaves the slot (R14). -/
theorem step_sameInputs {s t : State} (hphase : s.phase ≠ .idle) (h : step s = .next t) : SameInputs s t := by
  have hrefl : SameInputs s s := ⟨rfl, rfl⟩
  have c := step_cases s
  generalize step s = x at c h
  cases c with
  | foreignFrame _ _ hp | runsSlot _ _ _ hp | waits hp | accepts _ _ hp => exact absurd hp hphase
  | busOpening => exact awaitBusOpen_sameInputs s t h
  | writes =>
    cases h
    match ha : s.answers with
    | [] => rwa [awaitWrite_nil _ _ ha]
    | a :: rest => rw [awaitWrite_cons _ _ a rest ha]; exact sameInputs_writeEnd _ _ s _ hrefl
  | cycleWrites => cases h; exact (sameInputs_exchangeRule s.cur s).write _ s hrefl
  | reads => cases h; exact (sameInputs_exchangeRule s.cur s).read _ s hrefl

/-- Without an answer the step leaves the state (R224). -/
theorem step_noAnswer {s : State} (hphase : s.phase ≠ .idle) (hanswers : s.answers = []) : step s = .next s := by
  have c := step_cases s
  generalize step s = x at c ⊢
  cases c with
  | foreignFrame _ _ hp | runsSlot _ _ _ hp | waits hp | accepts _ _ hp => exact absurd hp hphase
  | busOpening => simp only [awaitBusOpen, hanswers]
  | writes => rw [awaitWrite_nil _ _ hanswers]
  | cycleWrites => rw [awaitCycleWrite_nil _ _ _ hanswers]
  | reads => rw [awaitRead_nil _ _ _ hanswers]

/-- Settles O9: a running operation touches neither port, and each `await` operation waits for its answer. -/
theorem operationsAreHeldWhileOneRuns : Obligations.OperationsAreHeldWhileOneRuns :=
  ⟨fun _ _ => step_sameInputs, fun _ => step_noAnswer⟩

/-- Accepting an operation takes nothing more from the request side and leaves the slot. -/
theorem accept_sameInputs {q : Request} {s t : State} (h : accept q s = .next t) : SameInputs s t := by
  cases accept_cases q s with
  | notReady h' | alreadyOpen h' | badOperand h' | closed h' => cases h'.symm.trans h; exact ⟨rfl, rfl⟩
  | issued i h' => exact (exec_sameInputs i _ t (h'.symm.trans h) :)
  | opening h' => exact (awaitBusOpen_sameInputs _ t (h'.symm.trans h) :)

/-- No step fills an empty slot: no operation of the host reaches the primitives past the port (R11). -/
theorem step_slot_none {s t : State} (hslot : s.slot = none) (h : step s = .next t) : t.slot = none := by
  by_cases hphase : s.phase = .idle
  · cases hrequests : s.requests with
    | nil => cases (step_nothingPresented hphase hslot hrequests).symm.trans h; exact hslot
    | cons q rest => exact (accept_sameInputs ((step_accepts hphase hslot hrequests).symm.trans h)).2.trans hslot
  · exact (step_sameInputs hphase h).2.trans hslot

/-- Settles O49: the slot stays empty, and a step that leaves the codec busy has an operation in progress. -/
theorem everyStepKeepsHostDriven : Obligations.EveryStepKeepsHostDriven := by
  intro s t hdriven h
  refine ⟨step_slot_none hdriven.1 h, fun hbusy => ?_⟩
  cases step_run s t h with
  | idle same => subst same; exact hdriven.2 hbusy
  | atOnce q rest r _ _ state => subst state; exact absurd rfl hbusy
  | opening _ _ _ _ op => exact op hdriven
  | openFails _ phase => exact absurd phase hbusy
  | run c frame u run _ _ _ _ _ _ op =>
    cases run with
    | waits _ _ _ hop => rw [hop]; exact op hdriven
    | ended _ _ phase | handshake _ _ phase | teardown _ _ _ phase => exact absurd phase hbusy

/-- Settles O54, from what a step can do (`StepRun`) and what a command comes to (`Run`). -/
theorem exactlyOneResultPerOperation : Obligations.ExactlyOneResultPerOperation := by
  intro s t h
  cases step_run s t h with
  | idle same phase slot requests => exact .inr ⟨congrArg _ same, .inr ⟨same, phase, slot, requests⟩⟩
  | atOnce q rest r _ _ state => subst state; exact .inl ⟨rfl, rfl, r, rfl⟩
  | opening results stuck => exact .inr ⟨results, .inl stuck⟩
  | openFails results phase op => exact .inl ⟨phase, op, _, results⟩
  | run c frame u run _ _ start =>
    cases run with
    | waits phase answers results => exact .inr ⟨results.trans start, .inl ⟨phase, answers⟩⟩
    | ended r results phase op | handshake _ results phase op | teardown _ _ results phase op =>
      exact .inl ⟨phase, op, _, start ▸ results⟩

end Sys2Proof.Machine
end

section
/-! SUPPORT. What a step does to READY and LAST_CLOSE_FAILED (R13, R19): a handshake sets the one, a teardown clears it and
writes the other, and no other step writes either. -/

namespace Sys2Proof.Machine

/-- What a step from `s` to `t` does to READY and LAST_CLOSE_FAILED. -/
inductive Lifecycle (s t : State) : Prop where
  | keeps (ready : t.ready = s.ready) (closeFailed : t.lastCloseFailed = s.lastCloseFailed)
  /-- The identifier has been checked (R170, R171). -/
  | opened (ready : t.ready = true) (closeFailed : t.lastCloseFailed = s.lastCloseFailed)
      (results : t.results = s.results ++ [.ok]) (echo : t.rxbuf.b0 = 0x99#8) (id : t.rxbuf.b1 = 0x15#8)
      (last : ∃ es, t.trace = s.trace ++ es ++ [.read (some t.rxbuf)])
  /-- The teardown's write has been answered (R173). -/
  | closed (wasReady : s.ready = true) (ready : t.ready = false) (results : t.results = s.results ++ [.ok]) (ok : Bool)
      (trace : t.trace = s.trace ++ [.write [0x0E#8, 0x00#8] ok]) (closeFailed : t.lastCloseFailed = !ok)

theorem step_lifecycle {s t : State} (hinv : Inv s) (h : step s = .next t) : Lifecycle s t := by
  cases step_run s t h with
  | idle same => subst same; exact .keeps rfl rfl
  | atOnce q rest r _ _ state => subst state; exact .keeps rfl rfl
  | opening _ _ ready closeFailed | openFails _ _ _ ready closeFailed => exact .keeps ready closeFailed
  | run c frame u run ready closeFailed results trace allOff closing =>
    obtain ⟨es, htrace, hes⟩ := trace
    cases run with
    | waits _ _ _ _ ready' closeFailed' | ended _ _ _ _ _ ready' closeFailed' =>
      exact .keeps (ready'.trans ready) (closeFailed'.trans closeFailed)
    | handshake _ results' _ _ _ ready' closeFailed' echo id last =>
      obtain ⟨es', hlast⟩ := last
      exact .opened ready' (closeFailed'.trans closeFailed) (results ▸ results') echo id
        ⟨es ++ es', by rw [hlast, htrace, List.append_assoc s.trace]⟩
    | teardown cmd hop results' _ _ _ ready' ok trace' closeFailed' =>
      have hready : s.ready = true :=
        (closing hop).elim id fun hclose => (hinv.opReady _ hclose).mpr (by simp)
      have hnil : es = [] := hes (by simp [cmd])
      exact .closed hready ready' (results ▸ results') ok
        (by rw [trace', htrace, hnil, List.append_nil, allOff (.inr hinv) cmd]) closeFailed'

/-- Settles O51, from the ways a step can write READY (`Lifecycle`). -/
theorem readyChangesOnlyInTheLifecycle : Obligations.ReadyChangesOnlyInTheLifecycle := by
  intro s t hinv h
  cases step_lifecycle hinv h with
  | keeps ready => rw [ready]; exact ⟨fun h0 h1 => by simp [h0] at h1, fun h1 h0 => by simp [h1] at h0⟩
  | opened ready _ results echo id last =>
    exact ⟨fun _ _ => ⟨echo, id, results, last⟩, fun _ h0 => by simp [ready] at h0⟩
  | closed wasReady ready results ok trace closeFailed =>
    exact ⟨fun h0 _ => by simp [wasReady] at h0, fun _ _ => ⟨results, ok, trace, closeFailed⟩⟩

/-- Settles O52, from the one way a step can write LAST_CLOSE_FAILED (`Lifecycle.closed`). -/
theorem onlyTeardownWritesLastCloseFailed : Obligations.OnlyTeardownWritesLastCloseFailed := by
  intro s t hinv h hchange
  cases step_lifecycle hinv h with
  | keeps _ closeFailed | opened _ closeFailed => exact absurd closeFailed hchange
  | closed wasReady ready _ ok trace closeFailed =>
    exact ⟨wasReady, ready, by rw [trace, closeFailed, Bool.not_not]⟩

end Sys2Proof.Machine
end

section
/-! SUPPORT. The invariant (`Inv`) through a step: what is carried while a command is in progress (`Carries`), and what
must hold where one is started (`Starts`). -/

namespace Sys2Proof.Machine

/-! ## Reset and inputs -/

/-- R17: TXLEN is 1 to 6 and TXBUF[0] is ENC(CUR). -/
def TxLawful (s : State) : Prop :=
  1 ≤ s.txlen.toNat ∧ s.txlen.toNat ≤ Config.N ∧ s.txbuf.b0 = s.cur.enc

/-- Where nothing is in progress only R17 is asked. -/
theorem inv_of_idle {s : State} (h : TxLawful s) (hphase : s.phase = .idle) (hop : s.op = none)
    (hopening : s.busOpening = false) : Inv s := by
  obtain ⟨hlow, hhigh, hhead⟩ := h
  exact {
    txlenLow := hlow
    txlenHigh := hhigh
    txHead := hhead
    idleNoOp := fun _ => hop
    opening := by simp [hopening]
    readingQuery := by simp [hphase]
    frameIsRequest := fun hbusy => absurd hphase hbusy
    queryAttempt := fun hbusy => absurd hphase hbusy
    opIssues := by simp [hop]
    opReady := by simp [hop] }

theorem inv_finish (r : Result) {s : State} (h : TxLawful s) : Inv (finish r s) :=
  inv_of_idle h rfl rfl rfl

/-- The values chosen for CUR, TXBUF and TXLEN meet R17 (notes/assumptions/1.md). -/
theorem txLawful_reset : TxLawful State.reset :=
  ⟨by decide, by decide, rfl⟩

/-- Settles O45: nothing is in progress at reset. -/
theorem invHoldsAtReset : Obligations.InvHoldsAtReset :=
  inv_of_idle txLawful_reset rfl rfl rfl

/-- An input of a run touches no register, so it keeps the invariant. -/
theorem Inv.take {s : State} (h : Inv s) (i : RunInput) : Inv (s.take i) := by
  cases i <;> exact { h with }

/-- A reset leaves the registers of the reset state. -/
theorem inv_afterReset (s : State) : Inv s.afterReset :=
  inv_of_idle txLawful_reset rfl rfl rfl

theorem HostDriven.take {s : State} (h : HostDriven s) (i : RunInput) : HostDriven (s.take i) := by
  cases i <;> exact h

theorem hostDriven_afterReset (s : State) : HostDriven s.afterReset :=
  ⟨rfl, fun h => absurd rfl h⟩

/-- Settles O47, input by input. -/
theorem everyInputKeepsInv : Obligations.EveryInputKeepsInv
  | _, .run i => ⟨fun h => h.take i, fun h => h.take i⟩
  | s, .reset => ⟨fun _ => inv_afterReset s, fun _ => hostDriven_afterReset s⟩

/-! ## What is carried while a command is in progress -/

/-- The operation in progress, if there is one, issues the command `c` (R64) and runs with the READY it asks for (R176,
R177). -/
def Starts (c : Cmd) (s : State) : Prop :=
  s.busOpening = false ∧ ∀ o, s.op = some o → o.issues c = true ∧ (s.ready = true ↔ o ≠ .openCodec)

/-- What holds all the while a command is in progress. -/
def Carries (s : State) : Prop :=
  TxLawful s ∧ Starts s.cur s ∧ ∃ i : Instr, i.cmd = s.cur ∧ s.txFrame = encode i

theorem Inv.txLawful {s : State} (h : Inv s) : TxLawful s :=
  ⟨h.txlenLow, h.txlenHigh, h.txHead⟩

/-- A `BusOpen` is outstanding in PHASE WRITING only (R14). -/
theorem Inv.busOpening_false {s : State} (h : Inv s) (hphase : s.phase ≠ .writing) : s.busOpening = false := by
  cases hopening : s.busOpening with
  | false => rfl
  | true => exact absurd (h.opening hopening).1 hphase

/-- OPEN, with its `BusOpen` outstanding. -/
theorem inv_opening {s : State} (h : TxLawful s) (hready : s.ready = false) (hphase : s.phase = .writing)
    (hopening : s.busOpening = true) (hop : s.op = some .openCodec) : Inv s := by
  obtain ⟨hlow, hhigh, hhead⟩ := h
  exact {
    txlenLow := hlow
    txlenHigh := hhigh
    txHead := hhead
    idleNoOp := by simp [hphase]
    opening := fun _ => ⟨hphase, hop⟩
    readingQuery := by simp [hphase]
    frameIsRequest := by simp [hopening]
    queryAttempt := by simp [hopening]
    opIssues := by simp [hopening]
    opReady := by simp [hop, hready] }

theorem Carries.inv {s : State} (h : Carries s) (hphase : s.phase ≠ .idle)
    (hreading : s.phase = .reading → s.cur.isQuery = true)
    (hattempt : s.cur.isQuery = true → 1 ≤ s.attempt.toNat) : Inv s := by
  obtain ⟨⟨hlow, hhigh, hhead⟩, ⟨hopening, hop⟩, hframe⟩ := h
  exact {
    txlenLow := hlow
    txlenHigh := hhigh
    txHead := hhead
    idleNoOp := fun h => absurd h hphase
    opening := by simp [hopening]
    readingQuery := hreading
    frameIsRequest := fun _ _ => hframe
    queryAttempt := fun _ _ => hattempt
    opIssues := fun o ho _ => (hop o ho).1
    opReady := fun o ho => (hop o ho).2 }

theorem Inv.carries {s : State} (h : Inv s) (hphase : s.phase ≠ .idle) (hopening : s.busOpening = false) : Carries s :=
  ⟨h.txLawful, ⟨hopening, fun o ho => ⟨h.opIssues o ho hopening, h.opReady o ho⟩⟩, h.frameIsRequest hphase hopening⟩

/-- A primitive that loads the frame of `i` (R50, R90, R92) carries `i`. -/
theorem Starts.carries_loadFrame {s : State} (i : Instr) (h : Starts i.cmd s) : Carries (s.loadFrame i.cmd i.extra) := by
  have hlen := extra_length_le i
  have htxlen : (s.loadFrame i.cmd i.extra).txlen.toNat = 1 + i.extra.length := by simp; omega
  refine ⟨⟨?_, ?_, rfl⟩, h, i, rfl, loadFrame_txFrame s i.cmd i.extra hlen⟩
  · omega
  · rw [htxlen]; simp only [Config.N]; omega

theorem inv_acceptOf (c : Cmd) {s : State} (h : TxLawful s) : Inv (acceptOf c s) := by
  rcases acceptOf_cases c s with ⟨r, e, _⟩ | ⟨_, _, e⟩ <;> rw [e]
  · exact inv_finish r h
  · exact (inv_finish .ok h : Inv (finish .ok { s with ready := true }))

theorem inv_writeEndOf (c : Cmd) (ok : Bool) {s : State} (h : TxLawful s) : Inv (writeEndOf c ok s) := by
  rcases writeEndOf_cases c ok s with ⟨e, _⟩ | ⟨_, _, e⟩ <;> rw [e] <;> exact inv_finish _ h

/-! ## The exchange -/

/-- An exchange in progress with `n` cycles left (R92): `ATTEMPT` counts the ones that were started. -/
def Exchanging (n : Nat) (s : State) : Prop :=
  Carries s ∧ s.cur.isQuery = true ∧ s.attempt.toNat + n = Config.maxAttempts

/-- The same inside a cycle: it has been started, and a transaction of it is outstanding. -/
def InCycle (n : Nat) (s : State) : Prop :=
  Exchanging n s ∧ 1 ≤ s.attempt.toNat ∧ s.phase ≠ .idle

theorem InCycle.inv {n : Nat} {s : State} (h : InCycle n s) : Inv s := by
  obtain ⟨⟨hcarries, hquery, -⟩, hattempt, hphase⟩ := h
  exact hcarries.inv hphase (fun _ => hquery) (fun _ => hattempt)

theorem InCycle.txLawful {n : Nat} {s : State} (h : InCycle n s) : TxLawful s := by
  obtain ⟨⟨⟨htx, -, -⟩, -, -⟩, -, -⟩ := h
  exact htx

/-- ATTEMPT does not wrap: a cycle is started only while one is left. -/
theorem Exchanging.start {n : Nat} {s : State} (h : Exchanging (n + 1) s) :
    InCycle n { s with attempt := s.attempt + 1#2, phase := .writing } := by
  obtain ⟨hcarries, hquery, hcount⟩ := h
  have hnext : (s.attempt + 1#2).toNat = s.attempt.toNat + 1 := by
    simp only [Config.maxAttempts] at hcount
    bv_omega
  refine ⟨⟨hcarries, hquery, ?_⟩, ?_, nofun⟩ <;> simp only [hnext] <;> omega

theorem inv_exchangeRule (c : Cmd) : ExchangeRule (acceptOf c) Exchanging InCycle InCycle Inv where
  exhausted _ h := inv_finish _ h.1.1
  start _ _ h := h.start
  writeWaits _ _ h _ := h.inv
  writeFails _ _ _ h _ := inv_finish _ h.txLawful
  writeOk _ _ _ _ h _ := ⟨h.1, h.2.1, nofun⟩
  readWaits _ _ h _ := h.inv
  readFails _ _ _ h _ := inv_finish _ h.txLawful
  valid _ _ _ _ h _ _ := inv_acceptOf c h.txLawful
  invalid _ _ _ _ h _ _ := h.1

/-- A query has no payload (R51). -/
theorem extra_of_isQuery (i : Instr) (h : i.cmd.isQuery = true) : i.extra = [] := by
  obtain ⟨-, -, -, -, -, hextra⟩ := Laws.Encoding.statement_of_instr i
  exact hextra h

/-! ## The step -/

/-- A command started where its operation may issue it keeps the invariant. -/
theorem exec_keepsInv {i : Instr} {s t : State} (he : exec i s = .next t) (h : Starts i.cmd s) : Inv t := by
  have hload := h.carries_loadFrame i
  revert he
  refine exec_rule (Q := fun r => r = .next t → Inv t) i s ?_ ?_
  · rintro hq he; cases he
    refine writeCommand_rule (Q := Inv) _ _ _ _ (extra_length_le i) ?_ ?_
    · intro _
      exact Carries.inv hload nofun nofun (by simp [hq])
    · intro a rest _
      exact inv_writeEndOf _ _ hload.1
  · rintro hq he; cases he
    rw [extra_of_isQuery i hq] at hload
    exact (inv_exchangeRule i.cmd).exchange _ _ ⟨hload, hq, rfl⟩

/-- OPEN's bus opening keeps the invariant: the handshake it goes on to is the command OPEN issues. -/
theorem awaitBusOpen_keepsInv {s t : State} (he : awaitBusOpen s = .next t) (h : Inv s)
    (hopening : s.busOpening = true) : Inv t := by
  obtain ⟨-, hop⟩ := h.opening hopening
  have hready := h.opReady _ hop
  revert he
  refine awaitBusOpen_rule (Q := fun r => r = .next t → Inv t) s ?_ ?_ ?_
  · rintro - he; cases he; exact h
  · rintro rest - he; cases he; exact inv_finish _ h.txLawful
  · rintro ack rest - he
    refine exec_keepsInv (i := .getId) he ⟨rfl, fun o ho => ?_⟩
    cases hop.symm.trans ho
    exact ⟨rfl, hready⟩

/-- In IDLE nothing is in progress. -/
theorem Inv.idle {s : State} (h : Inv s) (hphase : s.phase = .idle) : s.busOpening = false ∧ s.op = none :=
  ⟨h.busOpening_false (by simp [hphase]), h.idleNoOp hphase⟩

/-- An exchange in progress at any of its transactions. -/
theorem Inv.inCycle {s : State} (h : Inv s) (hphase : s.phase ≠ .idle) (hopening : s.busOpening = false)
    (hquery : s.cur.isQuery = true) : InCycle s.cyclesLeft s := by
  have hcount : s.attempt.toNat + s.cyclesLeft = Config.maxAttempts := by
    have := s.attempt.isLt
    simp only [State.cyclesLeft, Config.maxAttempts]
    omega
  exact ⟨⟨h.carries hphase hopening, hquery, hcount⟩, h.queryAttempt hphase hopening hquery, hphase⟩

/-- Settles O46, by the way the step goes. -/
theorem everyStepKeepsInv : Obligations.EveryStepKeepsInv := by
  intro s t hinv h
  refine step_rule (Q := Inv) s t h ?waits ?slotCmd ?ends ?issues ?opens ?opening ?writes ?cycleWrites ?reads
  case waits => exact fun _ _ _ => hinv
  case slotCmd =>
    intro f i rest hp _ _ u he
    exact exec_keepsInv he ⟨(hinv.idle hp).1, by simp [(hinv.idle hp).2]⟩
  case ends => exact fun _ _ r _ _ _ _ _ => inv_finish r hinv.txLawful
  case issues =>
    intro q rest i hp _ _ hop hready hissues u he
    refine exec_keepsInv he ⟨(hinv.idle hp).1, fun o ho => ?_⟩
    cases ho
    exact ⟨hissues, by simp [hready, hop]⟩
  case opens =>
    intro q rest hp _ _ _ hready u he
    exact awaitBusOpen_keepsInv he (inv_opening hinv.txLawful hready rfl rfl rfl) rfl
  case opening => exact fun _ hb u he => awaitBusOpen_keepsInv he hinv hb
  case writes =>
    intro hp hb _
    match ha : s.answers with
    | [] => rw [awaitWrite_nil _ _ ha]; exact hinv
    | a :: rest => rw [awaitWrite_cons _ _ a rest ha]; exact inv_writeEndOf _ _ hinv.txLawful
  case cycleWrites =>
    intro hp hb hq
    exact (inv_exchangeRule s.cur).write _ s (hinv.inCycle (by simp [hp]) hb hq)
  case reads =>
    intro hp
    have hb := hinv.busOpening_false (by simp [hp])
    exact (inv_exchangeRule s.cur).read _ s (hinv.inCycle (by simp [hp]) hb (hinv.readingQuery hp))

/-- Settles O48: the invariant and R11 hold at reset, and inputs and steps keep them. -/
theorem reachableStatesAreLawful : Obligations.ReachableStatesAreLawful := by
  intro s h
  induction h with
  | reset => exact ⟨invHoldsAtReset, rfl, fun hbusy => absurd rfl hbusy⟩
  | receive i _ ih => exact (everyInputKeepsInv _ i).imp (· ih.1) (· ih.2)
  | step _ h ih => exact ⟨everyStepKeepsInv _ _ ih.1 h, everyStepKeepsHostDriven _ _ ih.2 h⟩

end Sys2Proof.Machine
end

section
/-! SUPPORT. Two codecs side by side (R21): which of their registers bear on what they do (`Agree` between operations,
`InStep` inside one). -/

namespace Sys2Proof.Machine

/-- Coming to `u` and to `u'`, the codecs that were at `s` and `s'` have delivered the same results and events, and they
agree on READY, PHASE, the request side and the answers to come. -/
def Agree (s s' u u' : State) : Prop :=
  (∃ rs, u.results = s.results ++ rs ∧ u'.results = s'.results ++ rs) ∧
  (∃ es, u.trace = s.trace ++ es ∧ u'.trace = s'.trace ++ es) ∧
  u.ready = u'.ready ∧ u.phase = u'.phase ∧ u.requests = u'.requests ∧ u.answers = u'.answers

/-- They agree, and carry the same command of the same operation, with the same frame on the bus. -/
def InStep (s s' u u' : State) : Prop :=
  Agree s s' u u' ∧ u.op = u'.op ∧ u.cur = u'.cur ∧ u.txFrame = u'.txFrame

/-- The same for what a step answers. -/
def AgreeNext (s s' : State) (x x' : StepResult) : Prop :=
  ∃ u u', x = .next u ∧ x' = .next u' ∧ Agree s s' u u'

section
variable {s s' u u' : State}

theorem Agree.answers (h : Agree s s' u u') : ∃ as, u.answers = as ∧ u'.answers = as := by
  obtain ⟨-, -, -, -, -, hanswers⟩ := h
  exact ⟨u'.answers, hanswers, rfl⟩

theorem Agree.ready (h : Agree s s' u u') : u.ready = u'.ready := by
  obtain ⟨-, -, hready, -⟩ := h
  exact hready

/-- The same transaction, answered, of both. -/
theorem Agree.event (h : Agree s s' u u') (e : Event) (rest : List Answer) :
    Agree s s' { u with answers := rest, trace := u.trace ++ [e] }
      { u' with answers := rest, trace := u'.trace ++ [e] } := by
  obtain ⟨hresults, ⟨es, he, he'⟩, hready, hphase, hrequests, -⟩ := h
  exact ⟨hresults, ⟨es ++ [e], by simp [he], by simp [he']⟩, hready, hphase, hrequests, rfl⟩

/-- The same result, delivered by both. -/
theorem finish_agree (h : Agree s s' u u') (r : Result) : Agree s s' (finish r u) (finish r u') := by
  obtain ⟨⟨rs, hr, hr'⟩, htrace, hready, -, hrequests, hanswers⟩ := h
  exact ⟨⟨rs ++ [r], by simp [hr], by simp [hr']⟩, htrace, hready, rfl, hrequests, hanswers⟩

theorem finish_agreeNext (h : Agree s s' u u') (r : Result) : AgreeNext s s' (.next (finish r u)) (.next (finish r u')) :=
  ⟨_, _, rfl, rfl, finish_agree h r⟩

/-- READY set or cleared by both. -/
theorem Agree.setReady (h : Agree s s' u u') (b : Bool) : Agree s s' { u with ready := b } { u' with ready := b } := by
  obtain ⟨hresults, htrace, -, hphase, hrequests, hanswers⟩ := h
  exact ⟨hresults, htrace, rfl, hphase, hrequests, hanswers⟩

/-- PHASE set by both. -/
theorem Agree.setPhase (h : Agree s s' u u') (p : Phase) : Agree s s' { u with phase := p } { u' with phase := p } := by
  obtain ⟨hresults, htrace, hready, -, hrequests, hanswers⟩ := h
  exact ⟨hresults, htrace, hready, rfl, hrequests, hanswers⟩

/-- The request side of both changed alike. -/
theorem Agree.setRequests (h : Agree s s' u u') (requests : List Request) :
    Agree s s' { u with requests := requests } { u' with requests := requests } := by
  obtain ⟨hresults, htrace, hready, hphase, -, hanswers⟩ := h
  exact ⟨hresults, htrace, hready, hphase, rfl, hanswers⟩

theorem InStep.event (h : InStep s s' u u') (e : Event) (rest : List Answer) :
    InStep s s' { u with answers := rest, trace := u.trace ++ [e] }
      { u' with answers := rest, trace := u'.trace ++ [e] } :=
  ⟨h.1.event e rest, h.2⟩

theorem InStep.setPhase (h : InStep s s' u u') (p : Phase) : InStep s s' { u with phase := p } { u' with phase := p } :=
  ⟨h.1.setPhase p, h.2⟩

/-! ## The primitives -/

/-- A frame is loaded the same over whatever TXBUF held (R17). -/
theorem loadFrame_inStep (h : Agree s s' u u') (hop : u.op = u'.op) (c : Cmd) (extra : List Byte)
    (hlen : extra.length ≤ 3) : InStep s s' (u.loadFrame c extra) (u'.loadFrame c extra) :=
  ⟨h, hop, rfl, (loadFrame_txFrame u c extra hlen).trans (loadFrame_txFrame u' c extra hlen).symm⟩

theorem writeEndOf_agree (h : InStep s s' u u') (c : Cmd) (ok : Bool) :
    Agree s s' (writeEndOf c ok u) (writeEndOf c ok u') := by
  obtain ⟨hagree, hop, -⟩ := h
  rcases writeEndOf_cases c ok u with ⟨e, hother⟩ | ⟨hc, hclose, e⟩ <;>
    rcases writeEndOf_cases c ok u' with ⟨e', hother'⟩ | ⟨hc', hclose', e'⟩ <;> rw [e, e']
  · exact finish_agree hagree _
  · exact absurd (hop.trans hclose') (hother hc')
  · exact absurd (hop.symm.trans hclose) (hother' hc)
  · exact finish_agree (hagree.setReady false) .ok

/-- What a valid frame is turned into depends on the frame alone. -/
theorem acceptOf_agree (h : Agree s s' u u') (hrx : u.rxbuf = u'.rxbuf) (c : Cmd) :
    Agree s s' (acceptOf c u) (acceptOf c u') := by
  cases c
  case getId =>
    simp only [acceptOf, endHandshake, hrx, raise_eq]
    split
    · exact finish_agree (h.setReady true) .ok
    · exact finish_agree h _
  all_goals
    simp only [acceptOf, endExchange, endDriveFaultA, endDriveFaultB, endBatteryVoltage, hrx]
    exact finish_agree h _

theorem awaitWrite_agree (h : InStep s s' u u') (c : Cmd) :
    Agree s s' (awaitWrite (writeEndOf c) u) (awaitWrite (writeEndOf c) u') := by
  have ⟨hagree, _, _, hframe⟩ := h
  obtain ⟨as, ha, ha'⟩ := hagree.answers
  match as, ha, ha' with
  | [], ha, ha' => rwa [awaitWrite_nil _ _ ha, awaitWrite_nil _ _ ha']
  | a :: rest, ha, ha' =>
    rw [awaitWrite_cons _ _ a rest ha, awaitWrite_cons _ _ a rest ha', ← hframe]
    exact writeEndOf_agree (h.event _ rest) c a.isOk

/-- The read of a cycle, given the rest of the loop. -/
theorem awaitRead_agree {retry : State → State} (c : Cmd)
    (hretry : ∀ v v', InStep s s' v v' → Agree s s' (retry v) (retry v')) (h : InStep s s' u u') :
    Agree s s' (awaitRead (acceptOf c) retry u) (awaitRead (acceptOf c) retry u') := by
  have ⟨hagree, _, hcur, _⟩ := h
  obtain ⟨as, ha, ha'⟩ := hagree.answers
  match as, ha, ha' with
  | [], ha, ha' => rwa [awaitRead_nil _ _ _ ha, awaitRead_nil _ _ _ ha']
  | .fail :: rest, ha, ha' =>
    rw [awaitRead_fail _ _ _ rest ha, awaitRead_fail _ _ _ rest ha']
    exact finish_agree (hagree.event (.read none) rest) _
  | .ok f :: rest, ha, ha' =>
    by_cases he : f.b0 = u.cur.enc
    · rw [awaitRead_match _ _ _ f rest ha he, awaitRead_match _ _ _ f rest ha' (hcur ▸ he)]
      refine acceptOf_agree ?_ ?_ c
      · exact hagree.event (.read (some f)) rest
      · rfl
    · rw [awaitRead_mismatch _ _ _ f rest ha he, awaitRead_mismatch _ _ _ f rest ha' (hcur ▸ he)]
      exact hretry _ _ (h.event (.read (some f)) rest)

/-- The write of a cycle, given the rest of the loop. -/
theorem awaitCycleWrite_agree {retry : State → State} (c : Cmd)
    (hretry : ∀ v v', InStep s s' v v' → Agree s s' (retry v) (retry v')) (h : InStep s s' u u') :
    Agree s s' (awaitCycleWrite (acceptOf c) retry u) (awaitCycleWrite (acceptOf c) retry u') := by
  have ⟨hagree, _, _, hframe⟩ := h
  obtain ⟨as, ha, ha'⟩ := hagree.answers
  match as, ha, ha' with
  | [], ha, ha' => rwa [awaitCycleWrite_nil _ _ _ ha, awaitCycleWrite_nil _ _ _ ha']
  | .fail :: rest, ha, ha' =>
    rw [awaitCycleWrite_fail _ _ _ rest ha, awaitCycleWrite_fail _ _ _ rest ha', ← hframe]
    exact finish_agree (hagree.event _ rest) _
  | .ok ack :: rest, ha, ha' =>
    rw [awaitCycleWrite_ok _ _ _ ack rest ha, awaitCycleWrite_ok _ _ _ ack rest ha', ← hframe]
    exact awaitRead_agree c hretry ((h.event _ rest).setPhase .reading)

theorem cycles_agree (c : Cmd) (n : Nat) :
    ∀ u u', InStep s s' u u' → Agree s s' (cycles (acceptOf c) n u) (cycles (acceptOf c) n u') := by
  induction n with
  | zero =>
    rintro u u' ⟨hagree, -, hcur, -⟩
    rw [cycles_zero, cycles_zero, hcur]
    exact finish_agree hagree _
  | succ n ih =>
    intro u u' h
    rw [cycles_succ, cycles_succ]
    exact awaitCycleWrite_agree c ih (h.setPhase .writing)

/-! ## Commands and operations -/

/-- A command does the same from both, whatever the registers hold. -/
theorem exec_agree (h : Agree s s' u u') (hop : u.op = u'.op) (i : Instr) : AgreeNext s s' (exec i u) (exec i u') := by
  cases hq : i.cmd.isQuery with
  | false =>
    rw [exec_write i u hq, exec_write i u' hq, writeCommand_fits _ _ _ _ (extra_length_le i),
      writeCommand_fits _ _ _ _ (extra_length_le i)]
    have hloaded := loadFrame_inStep h hop i.cmd i.extra (extra_length_le i)
    exact ⟨_, _, rfl, rfl, awaitWrite_agree (hloaded.setPhase .writing) i.cmd⟩
  | true =>
    rw [exec_query i u hq, exec_query i u' hq, exchange_eq, exchange_eq]
    exact ⟨_, _, rfl, rfl, cycles_agree i.cmd 3 _ _ (loadFrame_inStep h hop i.cmd [] (Nat.zero_le _))⟩

theorem awaitBusOpen_agree (h : Agree s s' u u') (hop : u.op = u'.op) :
    AgreeNext s s' (awaitBusOpen u) (awaitBusOpen u') := by
  obtain ⟨as, ha, ha'⟩ := h.answers
  match as, ha, ha' with
  | [], ha, ha' => simp only [awaitBusOpen, ha, ha']; exact ⟨_, _, rfl, rfl, h⟩
  | .fail :: rest, ha, ha' =>
    simp only [awaitBusOpen, ha, ha', raise_eq]
    exact finish_agreeNext (h.event (.busOpen false) rest) _
  | .ok ack :: rest, ha, ha' =>
    simp only [awaitBusOpen, ha, ha']
    refine exec_agree ?_ ?_ .getId
    · exact (h.event (.busOpen true) rest).setPhase .idle
    · exact hop

theorem issue_agree (h : Agree s s' u u') (o : OpName) (i : Instr) :
    AgreeNext s s' (exec i { u with op := some o }) (exec i { u' with op := some o }) := by
  refine exec_agree ?_ ?_ i
  · exact h
  · rfl

/-- The lifecycle check looks at READY, on which both agree (R176, R177). -/
theorem ite_ready_agree {x y x' y' : StepResult} (h : Agree s s' u u') (hready : AgreeNext s s' x x')
    (hnot : AgreeNext s s' y y') : AgreeNext s s' (if u.ready then x else y) (if u'.ready then x' else y') := by
  rw [h.ready]
  split
  · exact hready
  · exact hnot

theorem runMotor_agree (h : Agree s s' u u') (o : OpName) (fwd rev : Byte → Instr) (p : Power) :
    AgreeNext s s' (runMotor o fwd rev p u) (runMotor o fwd rev p u') := by
  simp only [runMotor]
  split
  · exact finish_agreeNext h (.refused .badOperand)
  · exact issue_agree h o _

theorem requireReady_agree {run : State → StepResult} (h : Agree s s' u u') (hrun : AgreeNext s s' (run u) (run u')) :
    AgreeNext s s' (requireReady run u) (requireReady run u') :=
  ite_ready_agree h hrun (finish_agreeNext h (.refused .notReady))

theorem opOpen_agree (h : Agree s s' u u') : AgreeNext s s' (opOpen u) (opOpen u') := by
  refine ite_ready_agree h (finish_agreeNext h (.refused .alreadyOpen)) (awaitBusOpen_agree ?_ ?_)
  · exact h.setPhase .writing
  · rfl

theorem opClose_agree (h : Agree s s' u u') : AgreeNext s s' (opClose u) (opClose u') :=
  ite_ready_agree h (issue_agree h .closeCodec .allOff) (finish_agreeNext h .ok)

theorem accept_agree (h : Agree s s' u u') (q : Request) : AgreeNext s s' (accept q u) (accept q u') := by
  simp only [accept]
  cases q.op
  case openCodec => exact opOpen_agree h
  case closeCodec => exact opClose_agree h
  case setMotors | setMotorA | setMotorB => exact requireReady_agree h (runMotor_agree h _ _ _ _)
  case setLed | getDriveFaultA | getDriveFaultB | getBatteryVoltage | stop =>
    exact requireReady_agree h (issue_agree h _ _)

end

/-- Settles O57: both codecs wait, or both accept the same operation. -/
theorem onlyReadyMattersBetweenOperations : Obligations.OnlyReadyMattersBetweenOperations := by
  intro s t s' t' hphase hphase' hslot hslot' hready hrequests hanswers h h'
  have hstart : Agree s s' s s' :=
    ⟨⟨[], by simp⟩, ⟨[], by simp⟩, hready, hphase.trans hphase'.symm, hrequests, hanswers⟩
  have hagree : AgreeNext s s' (step s) (step s') := by
    cases hr : s.requests with
    | nil =>
      have hr' := hrequests.symm.trans hr
      rw [step_nothingPresented hphase hslot hr, step_nothingPresented hphase' hslot' hr']
      exact ⟨s, s', rfl, rfl, hstart⟩
    | cons q rest =>
      rw [step_accepts hphase hslot hr, step_accepts hphase' hslot' (hrequests.symm.trans hr)]
      exact accept_agree (hstart.setRequests rest) q
  rw [h, h'] at hagree
  obtain ⟨_, _, ⟨⟩, ⟨⟩, ⟨rs, hresults, hresults'⟩, ⟨es, htrace, htrace'⟩, hrest⟩ := hagree
  exact ⟨rs, es, hresults, hresults', htrace, htrace', hrest⟩

end Sys2Proof.Machine
end

section
/-! SUPPORT. The transport's answers and the events they leave (R40, R97, R229): what a step has taken up so far
(`TookUp`). -/

namespace Sys2Proof.Machine

/-- An event of the outcome of the answer `a`: a read's frame is the answer's, and a read without one failed. -/
def Answered (a : Answer) : Event → Prop
  | .busOpen ok => ok = a.isOk
  | .write _ ok => ok = a.isOk
  | .read none => a = .fail
  | .read (some f) => a = .ok f

/-- On the way from `s` to `t` some of the oldest answers have been taken up, each by one event of its own outcome, and
few enough that `left` more make no more than seven (R229). -/
def TookUp (left : Nat) (s t : State) : Prop :=
  ∃ (used : List Answer) (es : List Event), s.answers = used ++ t.answers ∧ t.trace = s.trace ++ es ∧
    es.length + left ≤ 7 ∧ List.Forall₂ Answered used es

section
variable {left : Nat} {s u : State}

theorem TookUp.refl (s : State) : TookUp 7 s s :=
  ⟨[], [], rfl, (List.append_nil _).symm, le_refl 7, .nil⟩

theorem TookUp.mono {fewer : Nat} (h : TookUp left s u) (hle : fewer ≤ left) : TookUp fewer s u := by
  obtain ⟨used, es, hanswers, htrace, hlength, hevents⟩ := h
  exact ⟨used, es, hanswers, htrace, by omega, hevents⟩

theorem TookUp.done (h : TookUp left s u) : TookUp 0 s u :=
  h.mono (Nat.zero_le left)

/-- The oldest answer is taken up by the event `e`. -/
theorem TookUp.event {a : Answer} {rest : List Answer} (h : TookUp (left + 1) s u) (e : Event)
    (ha : u.answers = a :: rest) (he : Answered a e) :
    TookUp left s { u with answers := rest, trace := u.trace ++ [e] } := by
  obtain ⟨used, es, hanswers, htrace, hlength, hevents⟩ := h
  refine ⟨used ++ [a], es ++ [e], ?_, ?_, ?_, List.rel_append hevents (.cons he .nil)⟩
  · rw [hanswers, ha, List.append_assoc, List.singleton_append]
  · rw [htrace, List.append_assoc]
  · rw [List.length_append, List.length_singleton]; omega

/-- The end of an operation touches neither the answers nor the trace. -/
theorem tookUp_acceptOf (c : Cmd) (h : TookUp left s u) : TookUp left s (acceptOf c u) := by
  rcases acceptOf_cases c u with ⟨r, e, _⟩ | ⟨_, _, e⟩ <;> rw [e] <;> exact h

theorem tookUp_writeEndOf (c : Cmd) (ok : Bool) (h : TookUp left s u) : TookUp left s (writeEndOf c ok u) := by
  rcases writeEndOf_cases c ok u with ⟨e, _⟩ | ⟨_, _, e⟩ <;> rw [e] <;> exact h

/-- Each cycle left may take up two more answers, a write's and a read's. -/
theorem tookUp_exchangeRule (c : Cmd) (s : State) :
    ExchangeRule (acceptOf c) (fun n => TookUp (2 * n) s) (fun n => TookUp (2 * n + 2) s)
      (fun n => TookUp (2 * n + 1) s) (TookUp 0 s) where
  exhausted _ h := h
  start _ _ h := h
  writeWaits _ _ h _ := h.done
  writeFails _ t _ h ha := (h.event (.write t.txFrame false) ha rfl).done
  writeOk _ t _ _ h ha := h.event (.write t.txFrame true) ha rfl
  readWaits _ _ h _ := h.done
  readFails _ _ _ h ha := (h.event (.read none) ha rfl).done
  valid _ _ f _ h ha _ := tookUp_acceptOf c (h.event (.read (some f)) ha rfl).done
  invalid _ _ f _ h ha _ := h.event (.read (some f)) ha rfl

theorem awaitWrite_tookUp (h : TookUp 1 s u) (c : Cmd) : TookUp 0 s (awaitWrite (writeEndOf c) u) := by
  match ha : u.answers with
  | [] => rw [awaitWrite_nil _ _ ha]; exact h.done
  | a :: rest =>
    rw [awaitWrite_cons _ _ a rest ha]
    exact tookUp_writeEndOf c a.isOk (h.event (.write u.txFrame a.isOk) ha rfl)

/-- A command takes up six answers at most, those of the three cycles of an exchange (R5). -/
theorem exec_tookUp {i : Instr} {t : State} (he : exec i u = .next t) (h : TookUp 6 s u) : TookUp 0 s t := by
  cases hq : i.cmd.isQuery with
  | false =>
    rw [exec_write i u hq, writeCommand_fits _ _ _ _ (extra_length_le i)] at he
    cases he
    refine awaitWrite_tookUp ?_ i.cmd
    exact h.mono (by decide)
  | true =>
    rw [exec_query i u hq] at he
    cases he
    exact (tookUp_exchangeRule i.cmd s).exchange _ u h

/-- OPEN takes up the answer of its `BusOpen` and those of the handshake. -/
theorem awaitBusOpen_tookUp {t : State} (he : awaitBusOpen u = .next t) (h : TookUp 7 s u) : TookUp 0 s t := by
  revert he
  refine awaitBusOpen_rule (Q := fun r => r = .next t → TookUp 0 s t) u ?_ ?_ ?_
  · rintro - he; cases he; exact h.done
  · rintro rest ha he; cases he; exact (h.event (.busOpen false) ha rfl).done
  · rintro ack rest ha he; exact exec_tookUp (i := .getId) he (h.event (.busOpen true) ha rfl)

end

/-- Settles O50, by the way the step goes; that an exchange taken up again has at most two cycles left is the
invariant's. -/
theorem oneEventPerAnswer : Obligations.OneEventPerAnswer := by
  intro s t hinv h
  have hstart := TookUp.refl s
  suffices TookUp 0 s t from this
  refine step_rule (Q := TookUp 0 s) s t h ?waits ?slotCmd ?ends ?issues ?opens ?opening ?writes ?cycleWrites ?reads
  case waits => exact fun _ _ _ => hstart.done
  case slotCmd => exact fun _ _ _ _ _ _ _ he => exec_tookUp he (hstart.mono (by decide))
  case ends => exact fun _ _ _ _ _ _ _ _ => hstart.done
  case issues => exact fun _ _ _ _ _ _ _ _ _ _ he => exec_tookUp he (hstart.mono (by decide))
  case opens => exact fun _ _ _ _ _ _ _ _ he => awaitBusOpen_tookUp he hstart
  case opening => exact fun _ _ _ he => awaitBusOpen_tookUp he hstart
  case writes => exact fun _ _ _ => awaitWrite_tookUp (hstart.mono (by decide)) s.cur
  case cycleWrites =>
    intro hp hb hq
    have hattempt := hinv.queryAttempt (by simp [hp]) hb hq
    refine (tookUp_exchangeRule s.cur s).write _ s (hstart.mono ?_)
    simp only [State.cyclesLeft, Config.maxAttempts]
    omega
  case reads =>
    intro hp
    refine (tookUp_exchangeRule s.cur s).read _ s (hstart.mono ?_)
    simp only [State.cyclesLeft, Config.maxAttempts]
    omega

end Sys2Proof.Machine
end

section
/-! SUPPORT. Answers that come late (R40, R224): what a step comes to with the early answers alone, and with the late
ones behind them (`GoesOn`). -/

namespace Sys2Proof.Machine

/-- The state in which the answers `late` have come too, behind those that were there. -/
def State.withLate (s : State) (late : List Answer) : State :=
  { s with answers := s.answers ++ late }

/-- With the early answers an operation comes to `x`; with `late` behind them it comes to the second result. -/
inductive GoesOn (late : List Answer) : StepResult → StepResult → Prop where
  /-- It has ended, and the late answers are left. -/
  | ended (t : State) (phase : t.phase = .idle) : GoesOn late (.next t) (.next (t.withLate late))
  /-- It waits, and is what the next step makes of the late answers. -/
  | waits (t : State) (phase : t.phase ≠ .idle) (answers : t.answers = []) :
      GoesOn late (.next t) (step (t.withLate late))
  /-- The frame in `slot` is no request frame. -/
  | fault (f : Fault) : GoesOn late (.fault f) (.fault f)

section
variable {late : List Answer} {s u : State}

@[simp] theorem withLate_ready : (u.withLate late).ready = u.ready := rfl
@[simp] theorem withLate_rxbuf : (u.withLate late).rxbuf = u.rxbuf := rfl

/-- The oldest answer is still an early one. -/
theorem withLate_answers {a : Answer} {rest : List Answer} (h : u.answers = a :: rest) :
    (u.withLate late).answers = a :: (rest ++ late) := by
  rw [State.withLate, h, List.cons_append]

/-! ## The step while an operation runs -/

theorem step_busOpening (hphase : s.phase = .writing) (hopening : s.busOpening = true) : step s = awaitBusOpen s := by
  simp only [step, runSequencer, resume, hphase, hopening, if_true]

theorem step_writes (hphase : s.phase = .writing) (hopening : s.busOpening = false) (hquery : s.cur.isQuery = false) :
    step s = .next (awaitWrite (writeEndOf s.cur) s) := by
  simp [step, runSequencer, resume, hphase, hopening, hquery]

theorem step_cycleWrites (hphase : s.phase = .writing) (hopening : s.busOpening = false)
    (hquery : s.cur.isQuery = true) :
    step s = .next (awaitCycleWrite (acceptOf s.cur) (cycles (acceptOf s.cur) s.cyclesLeft) s) := by
  simp [step, runSequencer, resume, hphase, hopening, hquery]

theorem step_reads (hphase : s.phase = .reading) :
    step s = .next (awaitRead (acceptOf s.cur) (cycles (acceptOf s.cur) s.cyclesLeft) s) := by
  simp only [step, runSequencer, resume, hphase]

/-! ## The ends of an operation -/

theorem finish_goesOn (r : Result) (u : State) :
    GoesOn late (.next (finish r u)) (.next (finish r (u.withLate late))) :=
  .ended (finish r u) rfl

theorem returnWrite_goesOn (ok : Bool) (u : State) :
    GoesOn late (.next (returnWrite ok u)) (.next (returnWrite ok (u.withLate late))) := by
  rw [returnWrite_eq, returnWrite_eq]
  exact finish_goesOn _ u

theorem writeEndOf_goesOn (c : Cmd) (ok : Bool) (u : State) :
    GoesOn late (.next (writeEndOf c ok u)) (.next (writeEndOf c ok (u.withLate late))) := by
  cases c
  case allOff =>
    by_cases hop : u.op = some .closeCodec
    · rw [writeEndOf, endAllOff_close ok u hop, endAllOff_close ok (u.withLate late) hop]
      exact finish_goesOn .ok { u with lastCloseFailed := !ok, ready := false }
    · rw [writeEndOf, endAllOff_other ok u hop, endAllOff_other ok (u.withLate late) hop]
      exact returnWrite_goesOn ok u
  all_goals exact returnWrite_goesOn ok u

theorem endHandshake_goesOn (u : State) :
    GoesOn late (.next (endHandshake u)) (.next (endHandshake (u.withLate late))) := by
  by_cases hid : payload u.rxbuf 0 = Config.boardId
  · rw [endHandshake, endHandshake, withLate_rxbuf, if_pos hid, if_pos hid]
    exact finish_goesOn .ok { u with ready := true }
  · rw [endHandshake, endHandshake, withLate_rxbuf, if_neg hid, if_neg hid]
    exact finish_goesOn (.err .unexpectedDevice) u

theorem acceptOf_goesOn (c : Cmd) (u : State) :
    GoesOn late (.next (acceptOf c u)) (.next (acceptOf c (u.withLate late))) := by
  cases c
  case getId => exact endHandshake_goesOn u
  all_goals exact finish_goesOn _ u

/-! ## The primitives -/

theorem awaitWrite_goesOn (hphase : u.phase = .writing) (hopening : u.busOpening = false)
    (hquery : u.cur.isQuery = false) :
    GoesOn late (.next (awaitWrite (writeEndOf u.cur) u))
      (.next (awaitWrite (writeEndOf u.cur) (u.withLate late))) := by
  match ha : u.answers with
  | [] =>
    have hstep := step_writes (s := u.withLate late) hphase hopening hquery
    rw [awaitWrite_nil _ u ha]
    exact hstep ▸ .waits u (by simp [hphase]) ha
  | a :: rest =>
    rw [awaitWrite_cons _ _ a rest ha, awaitWrite_cons _ _ a (rest ++ late) (withLate_answers ha)]
    exact writeEndOf_goesOn u.cur a.isOk { u with answers := rest, trace := u.trace ++ [.write u.txFrame a.isOk] }

/-- `exchange(c)` is in progress with `n` cycles left, which is what a step that takes it up again reads in ATTEMPT
(R92). -/
def InExchange (c : Cmd) (n : Nat) (s : State) : Prop :=
  s.cur = c ∧ s.busOpening = false ∧ s.cyclesLeft = n

/-- ATTEMPT counts the cycle that starts. -/
theorem InExchange.start {c : Cmd} {n : Nat} (h : InExchange c (n + 1) s) :
    InExchange c n { s with attempt := s.attempt + 1#2, phase := .writing } := by
  obtain ⟨hcur, hopening, hleft⟩ := h
  refine ⟨hcur, hopening, ?_⟩
  simp only [State.cyclesLeft, Config.maxAttempts] at hleft ⊢
  bv_omega

theorem InExchange.step_writing {c : Cmd} {n : Nat} (h : InExchange c n s) (hquery : c.isQuery = true)
    (hphase : s.phase = .writing) : step s = .next (awaitCycleWrite (acceptOf c) (cycles (acceptOf c) n) s) := by
  obtain ⟨rfl, hopening, rfl⟩ := h
  exact step_cycleWrites hphase hopening hquery

theorem InExchange.step_reading {c : Cmd} {n : Nat} (h : InExchange c n s) (hphase : s.phase = .reading) :
    step s = .next (awaitRead (acceptOf c) (cycles (acceptOf c) n) s) := by
  obtain ⟨rfl, -, rfl⟩ := h
  exact step_reads hphase

/-- An exchange carried on beside the one that has the late answers too, which comes to `y`. -/
theorem goesOn_exchangeRule {c : Cmd} (hquery : c.isQuery = true) (late : List Answer) (y : StepResult) :
    ExchangeRule (acceptOf c)
      (fun n u => InExchange c n u ∧ .next (cycles (acceptOf c) n (u.withLate late)) = y)
      (fun n u => InExchange c n u ∧ u.phase = .writing ∧
        .next (awaitCycleWrite (acceptOf c) (cycles (acceptOf c) n) (u.withLate late)) = y)
      (fun n u => InExchange c n u ∧ u.phase = .reading ∧
        .next (awaitRead (acceptOf c) (cycles (acceptOf c) n) (u.withLate late)) = y)
      (fun t => GoesOn late (.next t) y) where
  exhausted := by
    rintro u ⟨-, rfl⟩
    exact finish_goesOn _ u
  start := by
    rintro n u ⟨hin, hy⟩
    exact ⟨hin.start, rfl, hy⟩
  writeWaits := by
    rintro n u ⟨hin, hphase, rfl⟩ ha
    rw [← InExchange.step_writing (s := u.withLate late) hin hquery hphase]
    exact .waits u (by simp [hphase]) ha
  writeFails := by
    rintro n u rest ⟨-, -, rfl⟩ ha
    rw [awaitCycleWrite_fail _ _ _ (rest ++ late) (withLate_answers ha)]
    exact finish_goesOn _ { u with answers := rest, trace := u.trace ++ [.write u.txFrame false] }
  writeOk := by
    rintro n u ack rest ⟨hin, -, rfl⟩ ha
    rw [awaitCycleWrite_ok _ _ _ ack (rest ++ late) (withLate_answers ha)]
    exact ⟨hin, rfl, rfl⟩
  readWaits := by
    rintro n u ⟨hin, hphase, rfl⟩ ha
    rw [← InExchange.step_reading (s := u.withLate late) hin hphase]
    exact .waits u (by simp [hphase]) ha
  readFails := by
    rintro n u rest ⟨-, -, rfl⟩ ha
    rw [awaitRead_fail _ _ _ (rest ++ late) (withLate_answers ha)]
    exact finish_goesOn _ { u with
      answers := rest
      trace := u.trace ++ [.read none]
      rxbuf := Config.rxAfterFailedRead u.draws
      draws := u.draws + 1 }
  valid := by
    rintro n u f rest ⟨-, -, rfl⟩ ha he
    rw [awaitRead_match _ _ _ f (rest ++ late) (withLate_answers ha) he]
    exact acceptOf_goesOn c { u with answers := rest, trace := u.trace ++ [.read (some f)], rxbuf := f }
  invalid := by
    rintro n u f rest ⟨hin, -, rfl⟩ ha he
    rw [awaitRead_mismatch _ _ _ f (rest ++ late) (withLate_answers ha) he]
    exact ⟨hin, rfl⟩

/-! ## Commands and operations -/

theorem exec_goesOn (i : Instr) (hopening : u.busOpening = false) :
    GoesOn late (exec i u) (exec i (u.withLate late)) := by
  cases hquery : i.cmd.isQuery with
  | false =>
    rw [exec_write i _ hquery, exec_write i _ hquery, writeCommand_fits _ _ _ _ (extra_length_le i),
      writeCommand_fits _ _ _ _ (extra_length_le i)]
    exact awaitWrite_goesOn (u := { u.loadFrame i.cmd i.extra with phase := .writing }) rfl hopening hquery
  | true =>
    rw [exec_query i _ hquery, exec_query i _ hquery]
    exact (goesOn_exchangeRule hquery late _).exchange i.cmd u ⟨⟨rfl, hopening, rfl⟩, rfl⟩

theorem awaitBusOpen_goesOn (hphase : u.phase = .writing) (hopening : u.busOpening = true) :
    GoesOn late (awaitBusOpen u) (awaitBusOpen (u.withLate late)) := by
  match ha : u.answers with
  | [] =>
    rw [← step_busOpening (s := u.withLate late) hphase hopening]
    simp only [awaitBusOpen, ha]
    exact .waits u (by simp [hphase]) ha
  | .fail :: rest =>
    simp only [awaitBusOpen, ha, withLate_answers ha]
    exact finish_goesOn _ { u with answers := rest, trace := u.trace ++ [.busOpen false] }
  | .ok ack :: rest =>
    simp only [awaitBusOpen, ha, withLate_answers ha]
    exact exec_goesOn (u := { u with
      answers := rest
      trace := u.trace ++ [.busOpen true]
      phase := .idle
      busOpening := false }) .getId rfl

theorem issue_goesOn (o : OpName) (i : Instr) (hopening : u.busOpening = false) :
    GoesOn late (exec i { u with op := some o }) (exec i { u.withLate late with op := some o }) :=
  exec_goesOn (u := { u with op := some o }) i hopening

/-- The lifecycle check looks at READY, which no answer touches (R176, R177). -/
theorem ite_ready_goesOn {x y x' y' : StepResult} (hready : GoesOn late x x') (hnot : GoesOn late y y') :
    GoesOn late (if u.ready then x else y) (if (u.withLate late).ready then x' else y') := by
  rw [withLate_ready]
  split
  · exact hready
  · exact hnot

theorem requireReady_goesOn {run : State → StepResult} (hrun : GoesOn late (run u) (run (u.withLate late))) :
    GoesOn late (requireReady run u) (requireReady run (u.withLate late)) :=
  ite_ready_goesOn hrun (finish_goesOn _ u)

theorem runMotor_goesOn (o : OpName) (fwd rev : Byte → Instr) (p : Power) (hopening : u.busOpening = false) :
    GoesOn late (runMotor o fwd rev p u) (runMotor o fwd rev p (u.withLate late)) := by
  simp only [runMotor]
  split
  · exact finish_goesOn _ u
  · exact issue_goesOn o _ hopening

theorem opOpen_goesOn : GoesOn late (opOpen u) (opOpen (u.withLate late)) :=
  ite_ready_goesOn (finish_goesOn _ u)
    (awaitBusOpen_goesOn (u := { u with op := some .openCodec, phase := .writing, busOpening := true }) rfl rfl)

theorem opClose_goesOn (hopening : u.busOpening = false) : GoesOn late (opClose u) (opClose (u.withLate late)) :=
  ite_ready_goesOn (issue_goesOn .closeCodec .allOff hopening) (finish_goesOn .ok u)

theorem accept_goesOn (q : Request) (hopening : u.busOpening = false) :
    GoesOn late (accept q u) (accept q (u.withLate late)) := by
  simp only [accept]
  cases q.op
  case openCodec => exact opOpen_goesOn
  case closeCodec => exact opClose_goesOn hopening
  case setMotors | setMotorA | setMotorB => exact requireReady_goesOn (runMotor_goesOn _ _ _ _ hopening)
  case setLed | getDriveFaultA | getDriveFaultB | getBatteryVoltage | stop =>
    exact requireReady_goesOn (issue_goesOn _ _ hopening)

/-! ## The step -/

theorem step_foreignFrame {f : Frame} {e : DecodeError} (hphase : s.phase = .idle) (hslot : s.slot = some f)
    (hdecode : decode f.toList = .error e) : step s = .fault (.notARequestFrame e) := by
  rw [step_idle s hphase]
  simp only [startNext, hslot, runSlot, hdecode]

/-- Both steps go the same way, as no answer bears on which it is. -/
theorem step_goesOn (hinv : Inv s) (late : List Answer) : GoesOn late (step s) (step (s.withLate late)) := by
  have hidle : s.phase = .idle → s.busOpening = false := fun hp => (hinv.idle hp).1
  have c := step_cases s
  generalize step s = x at c ⊢
  cases c with
  | foreignFrame f e hp hs hd =>
    rw [step_foreignFrame (s := s.withLate late) hp hs hd]
    exact .fault _
  | runsSlot f i rest hp hs hd =>
    rw [stepRunsTheDecodedInstruction (s.withLate late) f i rest hp hs hd]
    exact exec_goesOn (u := { s with slot := none }) i (hidle hp)
  | waits hp hs hr =>
    rw [step_nothingPresented (s := s.withLate late) hp hs hr]
    exact .ended s hp
  | accepts q rest hp hs hr =>
    rw [step_accepts (s := s.withLate late) hp hs hr]
    exact accept_goesOn (u := { s with requests := rest }) q (hidle hp)
  | busOpening hp hb =>
    rw [step_busOpening (s := s.withLate late) hp hb]
    exact awaitBusOpen_goesOn hp hb
  | writes hp hb hq =>
    rw [step_writes (s := s.withLate late) hp hb hq]
    exact awaitWrite_goesOn hp hb hq
  | cycleWrites hp hb hq =>
    rw [step_cycleWrites (s := s.withLate late) hp hb hq]
    exact (goesOn_exchangeRule hq late _).write _ s ⟨⟨rfl, hb, rfl⟩, hp, rfl⟩
  | reads hp =>
    rw [step_reads (s := s.withLate late) hp]
    have hopening := hinv.busOpening_false (by simp [hp])
    exact (goesOn_exchangeRule (hinv.readingQuery hp) late _).read _ s ⟨⟨rfl, hopening, rfl⟩, hp, rfl⟩

end

/-- Settles O58: a step with the late answers too goes on where the one without them ends or waits (`GoesOn`). -/
theorem lateAnswersMakeNoDifference : Obligations.LateAnswersMakeNoDifference := by
  intro s t early late hinv h
  have hboth := step_goesOn (s := { s with answers := early }) { hinv with } late
  rw [h] at hboth
  change GoesOn late _ (step { s with answers := early ++ late }) at hboth
  generalize step { s with answers := early ++ late } = y at hboth ⊢
  cases hboth with
  | ended _ phase => exact ⟨fun _ => rfl, fun hbusy => absurd phase hbusy⟩
  | waits _ phase answers =>
    refine ⟨fun hphase => absurd hphase phase, fun _ => ⟨answers, ?_⟩⟩
    rw [State.withLate, answers, List.nil_append]

end Sys2Proof.Machine
end

section
/-! SUPPORT. The decoder and the request frame, in both directions (R50 to R53, R61 to R63). -/

namespace Sys2Proof

/-- DEC answers a command for the opcode of that command alone (R71). -/
theorem Cmd.dec_eq_some_iff {b : Byte} {c : Cmd} : Cmd.dec b = some c ↔ b = c.enc := by
  constructor
  · intro h
    exact (eq_of_beq (List.find?_some (p := fun c : Cmd => c.enc == b) h)).symm
  · rintro rfl
    exact c.dec_enc

@[simp] theorem decode_enc_cons (c : Cmd) (payload : List Byte) :
    decode (c.enc :: payload) = decodePayload c payload := by
  simp only [decode, Cmd.dec_enc]

theorem decode_unassigned {b : Byte} (h : Cmd.dec b = none) (payload : List Byte) :
    decode (b :: payload) = .error (.unassignedOpcode b) := by
  simp only [decode, h]

/-- What is decoded begins with an assigned opcode, and the rest of it is the payload. -/
theorem decode_eq_ok_iff {bytes : List Byte} {x : Instr × List Byte} :
    decode bytes = .ok x ↔ ∃ (c : Cmd) (payload : List Byte), bytes = c.enc :: payload ∧ decodePayload c payload = .ok x := by
  constructor
  · intro h
    match bytes with
    | [] => cases h
    | b :: payload =>
      cases hdec : Cmd.dec b with
      | none => cases (decode_unassigned hdec payload).symm.trans h
      | some c =>
        obtain rfl := Cmd.dec_eq_some_iff.mp hdec
        exact ⟨c, payload, rfl, decode_enc_cons c payload ▸ h⟩
  · rintro ⟨c, payload, rfl, h⟩
    exact (decode_enc_cons c payload).trans h

/-! ## The payload -/

theorem takeMagnitude_eq_ok_iff {c : Cmd} {mk : Byte → Instr} {payload : List Byte} {i : Instr} {rest : List Byte} :
    takeMagnitude c mk payload = .ok (i, rest) ↔ ∃ m, i = mk m ∧ payload = m :: rest := by
  cases payload <;> simp [takeMagnitude, eq_comm]

/-- The payload of `i`, whatever follows, is read as `i`. -/
theorem decodePayload_extra (i : Instr) (rest : List Byte) : decodePayload i.cmd (i.extra ++ rest) = .ok (i, rest) := by
  cases i <;> rfl

/-- A payload that is read as `i` for the command `c` is the one `i` is sent with. -/
theorem extra_of_decodePayload {c : Cmd} {payload : List Byte} {i : Instr} {rest : List Byte}
    (h : decodePayload c payload = .ok (i, rest)) : i.cmd = c ∧ payload = i.extra ++ rest := by
  cases c
  case setMotorAForward | setMotorAReverse | setMotorBForward | setMotorBReverse | setMotorsForward | setMotorsReverse =>
    obtain ⟨m, rfl, rfl⟩ := takeMagnitude_eq_ok_iff.mp h
    exact ⟨rfl, rfl⟩
  case setLed =>
    match payload with
    | r :: g :: b :: rest => cases h; exact ⟨rfl, rfl⟩
    | [] | [_] | [_, _] => cases h
  case allOff =>
    match payload with
    | [] => cases h
    | pad :: rest =>
      by_cases hpad : pad = 0x00#8
      · subst hpad; cases h; exact ⟨rfl, rfl⟩
      · simp [decodePayload, hpad] at h
  case getLed | getMotorA | getMotorB | getDriveFaultFlagA | getDriveFaultFlagB | getBatteryVoltage | getId =>
    cases h
    exact ⟨rfl, rfl⟩

theorem decodePayload_eq_ok_iff {c : Cmd} {payload : List Byte} {i : Instr} {rest : List Byte} :
    decodePayload c payload = .ok (i, rest) ↔ i.cmd = c ∧ payload = i.extra ++ rest := by
  refine ⟨extra_of_decodePayload, ?_⟩
  rintro ⟨rfl, rfl⟩
  exact decodePayload_extra i rest

/-- AllOff is never read with another pad than the one the codec sends (R58). -/
theorem decodePayload_allOff_pad {pad : Byte} (h : pad ≠ 0x00#8) (rest : List Byte) :
    decodePayload .allOff (pad :: rest) = .error (.padNotZero pad) := by
  simp only [decodePayload, if_neg h]

/-! ## The statements of the decoder -/

/-- Settles O3: the opcode is read by DEC, the inverse of ENC, and the payload by the format of its command. -/
theorem decodeAgreesWithEncode : Obligations.DecodeAgreesWithEncode := by
  intro bytes i rest
  calc decode bytes = .ok (i, rest)
    _ ↔ ∃ (c : Cmd) (payload : List Byte), bytes = c.enc :: payload ∧ i.cmd = c ∧ payload = i.extra ++ rest := by
      simp only [decode_eq_ok_iff, decodePayload_eq_ok_iff]
    _ ↔ bytes = encode i ++ rest := by
      constructor
      · rintro ⟨c, payload, rfl, rfl, rfl⟩
        rfl
      · rintro rfl
        exact ⟨i.cmd, i.extra ++ rest, rfl, rfl, rfl⟩

/-- Settles O4: each of the frames is the request frame of its instruction, and O3 decodes those. -/
theorem writtenOutFramesDecode : Obligations.WrittenOutFramesDecode := by
  have hdecodes (i : Instr) : decode (encode i) = .ok (i, []) :=
    (decodeAgreesWithEncode (encode i) i []).mpr (List.append_nil _).symm
  exact ⟨hdecodes (.setLed 0x10#8 0x20#8 0x30#8), hdecodes (.setMotorAReverse 0x7F#8), hdecodes .allOff,
    hdecodes .getBatteryVoltage, hdecodes .getId⟩

/-- Settles O11: DEC stops at an unassigned opcode, and the pad is looked at once 0x0E has been read as AllOff. -/
theorem unassignedOpcodesAreNoCommand : Obligations.UnassignedOpcodesAreNoCommand :=
  ⟨fun _ rest h => decode_unassigned h rest,
    fun b rest hpad => (decode_enc_cons .allOff (b :: rest)).trans (decodePayload_allOff_pad hpad rest)⟩

end Sys2Proof
end

section
/-! SUPPORT. Where a step stops (R62), and the operations that issue one fixed command (R64). -/

namespace Sys2Proof.Machine

/-- A step answers a next state, or a frame in the slot is no request frame. -/
theorem step_answers (s : State) :
    (∃ t, step s = .next t) ∨
    ∃ (f : Frame) (e : DecodeError), s.phase = .idle ∧ s.slot = some f ∧ decode f.toList = .error e ∧
      step s = .fault (.notARequestFrame e) := by
  have c := step_cases s
  generalize step s = x at c ⊢
  cases c with
  | foreignFrame f e hphase hslot hdecode => exact .inr ⟨f, e, hphase, hslot, hdecode, rfl⟩
  | runsSlot f i => exact .inl (exec_answers_next i _)
  | accepts q => exact .inl (accept_answers_next q _)
  | busOpening => exact .inl (awaitBusOpen_answers_next s)
  | waits | writes | cycleWrites | reads => exact .inl ⟨_, rfl⟩

theorem step_ne_refused (s : State) (r : Refusal) : step s ≠ .refused r := by
  rcases step_answers s with ⟨t, h⟩ | ⟨f, e, -, -, -, h⟩ <;> rw [h] <;> exact nofun

/-- Settles O10: whatever a step runs, but for a foreign frame, answers a next state. -/
theorem onlyAForeignFrameStopsTheMachine : Obligations.OnlyAForeignFrameStopsTheMachine := by
  refine ⟨step_ne_refused, fun s x => ⟨fun hfault => ?_, ?_⟩⟩
  · rcases step_answers s with ⟨t, h⟩ | ⟨f, e, hphase, hslot, hdecode, h⟩ <;> cases h.symm.trans hfault
    exact ⟨f, e, hphase, hslot, hdecode, rfl⟩
  · rintro ⟨f, e, hphase, hslot, hdecode, rfl⟩
    exact step_foreignFrame hphase hslot hdecode

theorem requireReady_of_ready {s : State} (h : s.ready = true) (run : State → StepResult) :
    requireReady run s = run s :=
  if_pos h

/-- Settles O40: the lifecycle check passes, and the operation is then its command. -/
theorem plainOperationsIssueTheirCommand : Obligations.PlainOperationsIssueTheirCommand := by
  intro q s hready
  refine ⟨?_, ?_, ?_, ?_, ?_⟩ <;> intro hop <;> simp only [accept, hop] <;> exact requireReady_of_ready hready _

end Sys2Proof.Machine
end

section
/-! SUPPORT. The catalog and its lookup port (R70, R71, R88): ENC and DEC are inverse to each other. -/

namespace Sys2Proof

/-- DEC takes each opcode back to its command, so no two commands share one (R88). -/
theorem Cmd.enc_injective : Function.Injective Cmd.enc := fun c d h =>
  Option.some.inj ((c.dec_enc.symm.trans (congrArg Cmd.dec h)).trans d.dec_enc)

theorem Cmd.dec_eq_none_iff {b : Byte} : Cmd.dec b = none ↔ ∀ c : Cmd, c.enc ≠ b := by
  rw [Option.eq_none_iff_forall_ne_some]
  exact forall_congr' fun c => not_congr (Cmd.dec_eq_some_iff.trans eq_comm)

@[simp] theorem Cmd.ofIdx_idx (c : Cmd) : Cmd.ofIdx c.idx = some c := by
  cases c <;> rfl

theorem Cmd.mem_all (c : Cmd) : c ∈ Cmd.all := by
  cases c <;> decide

/-- The 15 opcodes as the numbers of their bytes. -/
def Cmd.opcodeNumbers : List Nat :=
  Cmd.all.map fun c => c.enc.toNat

theorem Cmd.mem_opcodeNumbers {n : Nat} (hn : n < 256) :
    n ∈ Cmd.opcodeNumbers ↔ (Cmd.dec (BitVec.ofNat 8 n)).isSome = true := by
  simp only [Option.isSome_iff_exists, Cmd.dec_eq_some_iff, Cmd.opcodeNumbers, List.mem_map, Cmd.mem_all, true_and]
  exact exists_congr fun c => by rw [← BitVec.toNat_inj, BitVec.toNat_ofNat, Nat.mod_eq_of_lt hn, eq_comm]

/-- The assigned bytes are the 15 opcodes, each once. -/
theorem Cmd.assigned_perm_opcodeNumbers :
    ((List.range 256).filter fun n => (Cmd.dec (BitVec.ofNat 8 n)).isSome).Perm Cmd.opcodeNumbers := by
  rw [List.perm_ext_iff_of_nodup (List.nodup_range.filter _) (by decide)]
  intro n
  rw [List.mem_filter, List.mem_range]
  constructor
  · rintro ⟨hn, h⟩
    exact (Cmd.mem_opcodeNumbers hn).mpr h
  · intro h
    have hn : n < 256 := by
      obtain ⟨c, -, rfl⟩ := List.mem_map.mp h
      exact c.enc.isLt
    exact ⟨hn, (Cmd.mem_opcodeNumbers hn).mp h⟩

/-- Of the 256 bytes the 15 opcodes are assigned, and the rest are `Invalid` (R71). -/
theorem Cmd.unassigned_length :
    ((List.range 256).filter fun n => (Cmd.dec (BitVec.ofNat 8 n)).isNone).length = 241 := by
  have hassigned := Cmd.assigned_perm_opcodeNumbers.length_eq
  have hcount : Cmd.opcodeNumbers.length = 15 := rfl
  have hsplit := List.length_eq_length_filter_add (l := List.range 256) fun n => (Cmd.dec (BitVec.ofNat 8 n)).isSome
  simp only [Option.not_isSome, List.length_range, hassigned, hcount] at hsplit
  omega

namespace Machine

@[simp] theorem lookup_enc_idx (c : Cmd) : lookup (.enc c.idx) = .opcode c.enc := by
  simp only [lookup, Cmd.ofIdx_idx]

@[simp] theorem lookup_dec_enc (c : Cmd) : lookup (.dec c.enc) = .command c.idx := by
  simp only [lookup, Cmd.dec_enc]

theorem lookup_dec_unassigned {b : Byte} (h : Cmd.dec b = none) : lookup (.dec b) = .invalid := by
  simp only [lookup, h]

/-- Settles O2: DEC answers the one command whose opcode the byte is, and the other bytes are counted by the assigned
ones. -/
theorem decoderInvertsTheEncoder : Obligations.DecoderInvertsTheEncoder :=
  ⟨fun _ _ => Cmd.dec_eq_some_iff.trans eq_comm, fun _ => Cmd.dec_eq_none_iff, Cmd.unassigned_length, lookup_dec_enc,
    fun _ => lookup_dec_unassigned⟩

/-- Settles O1: the table and the port at the 16 indices are read off; the opcodes are distinct because DEC inverts
ENC. -/
theorem encoderIsThePrintedTable : Obligations.EncoderIsThePrintedTable :=
  ⟨by decide, fun _ _ h => Cmd.enc_injective h, lookup_enc_idx, by decide, by decide⟩

end Machine

end Sys2Proof
end

section
/-! SUPPORT. A command that only writes, once the transport has answered (R90): the state it leaves. -/

namespace Sys2Proof.Machine

/-- The write ends with the transport's answer as its result, unless it is the AllOff of a teardown (R173). -/
theorem writeEndOf_returns {c : Cmd} {s : State} (h : c = .allOff → s.op ≠ some .closeCodec) (a : Answer) :
    writeEndOf c a.isOk s = finish (writeResult a) s := by
  rcases writeEndOf_cases c a.isOk s with ⟨hend, -⟩ | ⟨hc, hop, -⟩
  · exact hend
  · exact absurd hop (h hc)

/-- An answered write outside a teardown: one event, one answer taken, the command's frame in the transmit registers. -/
theorem exec_write_answered {i : Instr} {s : State} {a : Answer} {rest : List Answer} (hwrites : i.cmd.isQuery = false)
    (hend : i.cmd = .allOff → s.op ≠ some .closeCodec) (hanswers : s.answers = a :: rest) :
    exec i s = .next (finish (writeResult a)
      { s.loadFrame i.cmd i.extra with
        phase := .writing
        answers := rest
        trace := s.trace ++ [.write (encode i) a.isOk] }) := by
  rw [exec_write i s hwrites]
  refine congrArg _ (writeCommand_rule (Q := (· = _)) i.cmd i.extra _ s (extra_length_le i) ?_ ?_)
  · intro hnone
    cases hnone.symm.trans hanswers
  · intro a' rest' h
    cases h.symm.trans hanswers
    refine writeEndOf_returns ?_ a
    exact hend

/-- A command of the format REQ2 (R52), with its payload byte `b1`. -/
theorem exec_req2_answered {i : Instr} {b1 : Byte} {s : State} {a : Answer} {rest : List Answer}
    (hwrites : i.cmd.isQuery = false) (hextra : i.extra = [b1]) (hend : i.cmd = .allOff → s.op ≠ some .closeCodec)
    (hanswers : s.answers = a :: rest) :
    exec i s = .next (afterReq2 i.cmd i.cmd.enc b1 a rest (writeResult a) s) := by
  rw [exec_write_answered hwrites hend hanswers, encode, hextra]
  rfl

/-- Settles O12: the answered write of a REQ4 frame. -/
theorem setLedWritesItsFrame : Obligations.SetLedWritesItsFrame :=
  fun r g b _ _ _ hanswers => exec_write_answered (i := .setLed r g b) rfl nofun hanswers

/-- Settles O13: the six commands are REQ2 commands and none is AllOff. -/
theorem motorCommandsWriteTheirFrames : Obligations.MotorCommandsWriteTheirFrames :=
  fun m _ _ _ hanswers =>
    ⟨exec_req2_answered (i := .setMotorAForward m) rfl rfl nofun hanswers,
      exec_req2_answered (i := .setMotorAReverse m) rfl rfl nofun hanswers,
      exec_req2_answered (i := .setMotorBForward m) rfl rfl nofun hanswers,
      exec_req2_answered (i := .setMotorBReverse m) rfl rfl nofun hanswers,
      exec_req2_answered (i := .setMotorsForward m) rfl rfl nofun hanswers,
      exec_req2_answered (i := .setMotorsReverse m) rfl rfl nofun hanswers⟩

/-- Settles O14: AllOff is the REQ2 command whose byte is the pad, and here it ends no teardown. -/
theorem allOffWritesItsFrame : Obligations.AllOffWritesItsFrame :=
  fun _ _ _ hop hanswers => exec_req2_answered (i := .allOff) rfl rfl (fun _ => hop) hanswers

end Sys2Proof.Machine
end

section
/-! SUPPORT. A query that is answered with a valid frame in one of its cycles (R92, R94): what each command makes of that
frame (R140 to R145, R147, R171). -/

namespace Sys2Proof.Machine

/-! ## What the payload says -/

theorem faultOf_eq (f : Frame) : faultOf f = decide (f.b1 ≠ 0x00#8) := by
  by_cases h : f.b1 = 0x00#8 <;> simp [faultOf, payload, Config.faultOff, h]

/-- The reading is payload bytes 0 and 1, the high byte first (R144). -/
theorem rawOf_toNat (f : Frame) : (rawOf f).toNat = 256 * f.b1.toNat + f.b2.toNat := by
  have happend : rawOf f = f.b1 ++ f.b2 := by
    rw [BitVec.append_def, BitVec.shiftLeftZeroExtend_eq, BitVec.setWidth'_eq]
    rfl
  rw [happend, BitVec.toNat_append, ← Nat.shiftLeft_add_eq_or_of_lt f.b2.isLt, Nat.shiftLeft_eq, Nat.mul_comm]

/-- 363/10 volts over 1023 steps is 11/310 volts a step (R145). -/
theorem voltsOf_eq (raw : Half) : voltsOf raw = (raw.toNat : Rat) * 11 / 310 := by
  simp only [voltsOf, Config.analogMax, Config.pinMaxVoltage, Config.pinCorrection]
  ring

theorem endHandshake_boardId {s : State} (h : s.rxbuf.b1 = 0x15#8) :
    endHandshake s = finish .ok { s with ready := true } :=
  if_pos h

theorem endHandshake_otherId {s : State} (h : s.rxbuf.b1 ≠ 0x15#8) :
    endHandshake s = finish (.err .unexpectedDevice) s :=
  if_neg h

/-! ## The exchange up to the valid frame -/

/-- `exchange(c)` as it hands on the valid frame `f`, read in the cycle after those of `bad`. -/
def State.readValid (s : State) (c : Cmd) (bad : List (Frame × Frame)) (f : Frame) (rest : List Answer) : State :=
  { s with
    cur := c
    txlen := 1#3
    txbuf := { s.txbuf with b0 := c.enc }
    attempt := BitVec.ofNat 2 (bad.length + 1)
    rxbuf := f
    phase := .reading
    answers := rest
    trace := s.trace ++ (cycleEvents c bad ++ [.write [c.enc] true, .read (some f)]) }

/-- The answers to `exchange(c)`: cycles that fail the echo check, fewer than `MAX_ATTEMPTS`, and then a valid one. -/
structure AnsweredValid (s : State) (c : Cmd) (bad : List (Frame × Frame)) (ack f : Frame) (rest : List Answer) : Prop where
  fewCycles : bad.length ≤ 2
  answers : s.answers = cycleAnswers bad ++ .ok ack :: .ok f :: rest
  mismatch : AllMismatch c bad
  valid : f.b0 = c.enc

section
variable {s : State} {bad : List (Frame × Frame)} {ack f : Frame} {rest : List Answer}

/-- The query takes up the first valid frame and starts no further cycle. -/
theorem exec_readValid {i : Instr} (hquery : i.cmd.isQuery = true) (h : AnsweredValid s i.cmd bad ack f rest) :
    exec i s = .next (acceptOf i.cmd (s.readValid i.cmd bad f rest)) := by
  rw [exec_query i s hquery, exchange_valid _ _ bad s ack f rest h.fewCycles h.mismatch h.answers h.valid]
  rfl

/-- A query that makes the result `r` of the frame and changes nothing else. -/
theorem exec_afterExchange {i : Instr} (r : Result) (hquery : i.cmd.isQuery = true)
    (h : AnsweredValid s i.cmd bad ack f rest)
    (haccept : acceptOf i.cmd (s.readValid i.cmd bad f rest) = finish r (s.readValid i.cmd bad f rest)) :
    exec i s = .next (afterExchange i.cmd i.cmd.enc (bad.length + 1) f
      (cycleEvents i.cmd bad ++ [.write [i.cmd.enc] true, .read (some f)]) rest r s) := by
  rw [exec_readValid hquery h, haccept]
  rfl

end

/-! ## The statements of the queries -/

/-- Settles O16: both queries answer `fault_of` of the valid frame. -/
theorem faultQueriesAnswerTheFlag : Obligations.FaultQueriesAnswerTheFlag := by
  intro s bad ack f rest hlen hanswers
  rw [← faultOf_eq]
  constructor <;> intro hmismatch hvalid
  · exact exec_afterExchange (i := .getDriveFaultFlagA) _ rfl ⟨hlen, hanswers, hmismatch, hvalid⟩ rfl
  · exact exec_afterExchange (i := .getDriveFaultFlagB) _ rfl ⟨hlen, hanswers, hmismatch, hvalid⟩ rfl

/-- Settles O17: the query answers `volts_of(raw_of(f))`, and that is the printed fraction. -/
theorem batteryQueryAnswersTheVoltage : Obligations.BatteryQueryAnswersTheVoltage := by
  intro s bad ack f rest hlen hanswers hmismatch hvalid
  rw [← rawOf_toNat, ← voltsOf_eq]
  exact exec_afterExchange (i := .getBatteryVoltage) _ rfl ⟨hlen, hanswers, hmismatch, hvalid⟩ rfl

/-- Settles O18: the identifier of the valid frame decides the end of the handshake. -/
theorem handshakeChecksTheIdentifier : Obligations.HandshakeChecksTheIdentifier := by
  intro s bad ack f rest hlen hanswers hmismatch hvalid
  have h : AnsweredValid s .getId bad ack f rest := ⟨hlen, hanswers, hmismatch, hvalid⟩
  constructor
  · intro hid
    exact (exec_readValid (i := .getId) rfl h).trans (congrArg _ (endHandshake_boardId hid))
  · intro hid
    exact exec_afterExchange (i := .getId) _ rfl h (endHandshake_otherId hid)

/-- Settles O19: each of the three queries ends as `exchange` itself does. -/
theorem unissuedQueriesReturnTheFrame : Obligations.UnissuedQueriesReturnTheFrame := by
  intro s bad ack f rest hlen hanswers
  refine ⟨?_, ?_, ?_⟩ <;> intro hmismatch hvalid
  · exact exec_afterExchange (i := .getLed) _ rfl ⟨hlen, hanswers, hmismatch, hvalid⟩ rfl
  · exact exec_afterExchange (i := .getMotorA) _ rfl ⟨hlen, hanswers, hmismatch, hvalid⟩ rfl
  · exact exec_afterExchange (i := .getMotorB) _ rfl ⟨hlen, hanswers, hmismatch, hvalid⟩ rfl

end Sys2Proof.Machine
end

section
/-! SUPPORT. The two primitives at their boundary (R90, R91, R93): the echo check, an overlong frame, and a write that
has no answer yet. -/

namespace Sys2Proof.Machine

theorem echoOk_iff {f : Frame} {c : Cmd} : echoOk f c = true ↔ f.b0 = c.enc :=
  beq_iff_eq

theorem echoOk_eq_false_iff {f : Frame} {c : Cmd} : echoOk f c = false ↔ f.b0 ≠ c.enc :=
  beq_eq_false_iff_ne

/-- Settles O26: byte 0 of another command's opcode fails because ENC is injective, and an unassigned one because it is
no opcode. -/
theorem echoCheckLooksAtByteZero : Obligations.EchoCheckLooksAtByteZero := by
  refine ⟨fun _ _ => echoOk_iff, ?_, ?_, ?_, by decide, by decide, by decide⟩
  · intro f g c hbyte
    simp only [echoOk, hbyte]
  · intro f c d hbyte hne
    exact echoOk_eq_false_iff.mpr fun h => hne (Cmd.enc_injective (h.symm.trans hbyte))
  · intro f c hnone
    exact echoOk_eq_false_iff.mpr (Cmd.dec_eq_none_iff.mp hnone c).symm

/-- Settles O25: the length check comes first, and the longest payload is REQ4's. -/
theorem overlongFramesAreRefused : Obligations.OverlongFramesAreRefused :=
  ⟨fun _ _ _ _ htooLong => if_pos htooLong, extra_length_le⟩

/-- Settles O15: the frame is loaded, and its `BusWrite` is left outstanding. -/
theorem writesWaitForTheTransport : Obligations.WritesWaitForTheTransport := by
  intro i s hwrites hnone
  have hwaits : exec i s = .next { s.loadFrame i.cmd i.extra with phase := .writing } := by
    rw [exec_write i s hwrites, writeCommand_fits _ _ _ _ (extra_length_le i), awaitWrite_nil]
    exact hnone
  exact ⟨_, hwaits, loadFrame_txFrame s _ _ (extra_length_le i), rfl⟩

end Sys2Proof.Machine
end

section
/-! SUPPORT. A query whose first frames fail the echo check (R92, R94, R95): it stands at the write of its next cycle, and
the answers that are left decide how it goes on from there. -/

namespace Sys2Proof.Machine

/-- `exchange(c)` at the write of the cycle that follows those of `bad`, with the answers `rest` left. -/
def State.atNextCycle (s : State) (c : Cmd) (bad : List (Frame × Frame)) (rest : List Answer) : State :=
  { s with
    cur := c
    txlen := 1#3
    txbuf := { s.txbuf with b0 := c.enc }
    attempt := BitVec.ofNat 2 (bad.length + 1)
    rxbuf := lastRead bad s.rxbuf
    phase := .writing
    answers := rest
    trace := s.trace ++ cycleEvents c bad }

section
variable {i : Instr} {s : State} {bad : List (Frame × Frame)} {rest : List Answer}

/-- With fewer than `MAX_ATTEMPTS` invalid cycles made, a further one is started (R94). -/
theorem exec_atNextCycle (hquery : i.cmd.isQuery = true) (hfew : bad.length ≤ 2) (hmismatch : AllMismatch i.cmd bad)
    (hanswers : s.answers = cycleAnswers bad ++ rest) :
    exec i s = .next (awaitCycleWrite (acceptOf i.cmd) (cycles (acceptOf i.cmd) (2 - bad.length))
      (s.atNextCycle i.cmd bad rest)) := by
  have hleft : bad.length + (2 - bad.length + 1) = 3 := by omega
  rw [exec_query i s hquery, exchange_mismatch _ _ bad _ s rest hleft hmismatch hanswers, cycles_succ, ofNat_succ]
  rfl

/-- Once its write is answered, the cycle waits for its read. -/
theorem exec_atNextRead {ack : Frame} (hquery : i.cmd.isQuery = true) (hfew : bad.length ≤ 2)
    (hmismatch : AllMismatch i.cmd bad) (hanswers : s.answers = cycleAnswers bad ++ .ok ack :: rest) :
    exec i s = .next (awaitRead (acceptOf i.cmd) (cycles (acceptOf i.cmd) (2 - bad.length))
      { s.atNextCycle i.cmd bad rest with
        phase := .reading
        trace := s.trace ++ cycleEvents i.cmd bad ++ [.write [i.cmd.enc] true] }) := by
  rw [exec_atNextCycle hquery hfew hmismatch hanswers, awaitCycleWrite_ok _ _ _ ack rest rfl]
  rfl

end

/-- Settles O20: the loop has no cycle left. -/
theorem echoMismatchAfterThreeCycles : Obligations.EchoMismatchAfterThreeCycles := by
  intro i s bad rest hquery hthree hmismatch hanswers
  rw [exec_query i s hquery, exchange_mismatch _ _ bad 0 s rest hthree hmismatch hanswers, cycles_zero, hthree]
  rfl

/-- Settles O21: the write of the next cycle fails. -/
theorem failedWriteEndsTheExchange : Obligations.FailedWriteEndsTheExchange := by
  intro i s bad rest hquery hfew hmismatch hanswers
  rw [exec_atNextCycle hquery hfew hmismatch hanswers, awaitCycleWrite_fail _ _ _ rest rfl, afterExchange,
    ← List.append_assoc]
  rfl

/-- Settles O22: the read of the next cycle fails. -/
theorem failedReadEndsTheExchange : Obligations.FailedReadEndsTheExchange := by
  intro i s bad ack rest hquery hfew hmismatch hanswers
  rw [exec_atNextRead hquery hfew hmismatch hanswers, awaitRead_fail _ _ _ rest rfl]
  simp only [List.append_assoc]
  rfl

/-- Settles O23: the next cycle has no answer to its write, or none to its read. -/
theorem queriesWaitForTheTransport : Obligations.QueriesWaitForTheTransport := by
  intro i s bad hquery hfew hmismatch
  constructor
  · intro hanswers
    rw [exec_atNextCycle (rest := []) hquery hfew hmismatch (by rw [hanswers, List.append_nil]),
      awaitCycleWrite_nil _ _ _ rfl]
    rfl
  · intro ack hanswers
    rw [exec_atNextRead hquery hfew hmismatch hanswers, awaitRead_nil _ _ _ rfl]
    rfl

end Sys2Proof.Machine
end

section
/-! SUPPORT. The counting laws (R99): any answers are some invalid cycles and one of the ways in which the next cycle does
not become a further one of them, so the statements of each ending are together all that a query can do. -/

namespace Sys2Proof.Machine

/-- The answers to a cycle of `exchange(c)` that is no whole invalid one: the exchange ends or waits there. -/
inductive LastCycle (c : Cmd) : List Answer → Prop where
  | writeWaits : LastCycle c []
  | writeFails (rest : List Answer) : LastCycle c (.fail :: rest)
  | readWaits (ack : Frame) : LastCycle c [.ok ack]
  | readFails (ack : Frame) (rest : List Answer) : LastCycle c (.ok ack :: .fail :: rest)
  | valid (ack f : Frame) (rest : List Answer) (h : f.b0 = c.enc) : LastCycle c (.ok ack :: .ok f :: rest)

/-- The answers begin with `n` invalid cycles, or with fewer and then a last one. -/
def InvalidThenLast (c : Cmd) (n : Nat) (answers : List Answer) : Prop :=
  ∃ (bad : List (Frame × Frame)) (rest : List Answer), AllMismatch c bad ∧ answers = cycleAnswers bad ++ rest ∧
    (bad.length = n ∨ bad.length < n ∧ LastCycle c rest)

theorem LastCycle.invalidThenLast {c : Cmd} {n : Nat} {answers : List Answer} (h : LastCycle c answers) :
    InvalidThenLast c (n + 1) answers :=
  ⟨[], answers, nofun, rfl, .inr ⟨n.succ_pos, h⟩⟩

/-- All answers do. -/
theorem invalidThenLast (c : Cmd) (n : Nat) (answers : List Answer) : InvalidThenLast c n answers := by
  induction n generalizing answers with
  | zero => exact ⟨[], answers, nofun, rfl, .inl rfl⟩
  | succ n ih =>
    match answers with
    | [] => exact LastCycle.writeWaits.invalidThenLast
    | .fail :: rest => exact (LastCycle.writeFails rest).invalidThenLast
    | [.ok ack] => exact (LastCycle.readWaits ack).invalidThenLast
    | .ok ack :: .fail :: rest => exact (LastCycle.readFails ack rest).invalidThenLast
    | .ok ack :: .ok f :: rest =>
      by_cases hvalid : f.b0 = c.enc
      · exact (LastCycle.valid ack f rest hvalid).invalidThenLast
      · obtain ⟨bad, left, hmismatch, rfl, hlength⟩ := ih rest
        refine ⟨(ack, f) :: bad, left, List.forall_mem_cons.mpr ⟨hvalid, hmismatch⟩, rfl, ?_⟩
        simpa using hlength

/-- A valid frame ends every query, with what is neither IoError nor EchoMismatch, and stays in RXBUF. -/
theorem acceptOf_ends (c : Cmd) (s : State) :
    ∃ r, (acceptOf c s).trace = s.trace ∧ (acceptOf c s).rxbuf = s.rxbuf ∧
      (acceptOf c s).results = s.results ++ [r] ∧ r ≠ .err .ioError ∧ ∀ d, r ≠ .err (.echoMismatch d) := by
  rcases acceptOf_cases c s with ⟨r, hend, hio, hecho, -⟩ | ⟨-, -, hend⟩ <;> rw [hend]
  · exact ⟨r, rfl, rfl, rfl, hio, hecho⟩
  · exact ⟨.ok, rfl, rfl, rfl, nofun, nofun⟩

/-- Settles O24: the answers decide the ending, by the statements of each of them. -/
theorem exchangeCountingLaws : Obligations.ExchangeCountingLaws := by
  intro i s t hquery hexec hidle
  obtain ⟨bad, rest, hmismatch, hanswers, hthree | ⟨hlt, hlast⟩⟩ := invalidThenLast i.cmd 3 s.answers
  · cases hexec.symm.trans (echoMismatchAfterThreeCycles i s bad rest hquery hthree hmismatch hanswers)
    exact ⟨bad, [], _, hmismatch, (List.append_nil _).symm, rfl, .inr (.inr (.inr ⟨hthree, rfl, rfl⟩))⟩
  · have hfew : bad.length ≤ 2 := Nat.le_of_lt_succ hlt
    obtain ⟨hwriteWaits, hreadWaits⟩ := queriesWaitForTheTransport i s bad hquery hfew hmismatch
    cases hlast with
    | writeWaits =>
      cases hexec.symm.trans (hwriteWaits (hanswers.trans (List.append_nil _)))
      cases hidle
    | readWaits ack =>
      cases hexec.symm.trans (hreadWaits ack hanswers)
      cases hidle
    | writeFails rest =>
      cases hexec.symm.trans (failedWriteEndsTheExchange i s bad rest hquery hfew hmismatch hanswers)
      exact ⟨bad, _, _, hmismatch, (List.append_assoc ..).symm, rfl, .inr (.inl ⟨hfew, rfl, rfl⟩)⟩
    | readFails ack rest =>
      cases hexec.symm.trans (failedReadEndsTheExchange i s bad ack rest hquery hfew hmismatch hanswers)
      exact ⟨bad, _, _, hmismatch, (List.append_assoc ..).symm, rfl, .inr (.inr (.inl ⟨hfew, rfl, rfl⟩))⟩
    | valid ack f rest hvalid =>
      cases hexec.symm.trans (exec_readValid hquery ⟨hfew, hanswers, hmismatch, hvalid⟩)
      obtain ⟨r, htrace, hrx, hresults, hio, hecho⟩ := acceptOf_ends i.cmd (s.readValid i.cmd bad f rest)
      exact ⟨bad, _, r, hmismatch, htrace.trans (List.append_assoc ..).symm, hresults,
        .inl ⟨hfew, ⟨f, hvalid, hrx, rfl⟩, hio, hecho⟩⟩

end Sys2Proof.Machine
end

section
/-! SUPPORT. The power operand (R110 to R113, R120): the value of a binary32 pattern, the clamp, the magnitude byte and
the direction. -/

namespace Sys2Proof.Machine

/-! ## binary32 -/

theorem withSign_eq (negative : Bool) (q : Rat) : withSign negative q = (if negative then -1 else 1) * q := by
  cases negative <;> simp [withSign]

/-- The signed `m * 2^k`. -/
theorem withSign_scaleByPow2 (negative : Bool) (m : Nat) (k : Int) :
    withSign negative (scaleByPow2 m k) = (if negative then -1 else 1) * m * (2 : ℚ) ^ k := by
  rw [withSign_eq, scaleByPow2_eq, mul_assoc]

section
variable {w : BitVec 32}

theorem binary32Value_nan (he : (w.extractLsb' 23 8).toNat = 255) (hf : (w.extractLsb' 0 23).toNat ≠ 0) :
    binary32Value w = .nan := by
  simp only [binary32Value, if_pos he, if_neg hf]

theorem binary32Value_infinity (he : (w.extractLsb' 23 8).toNat = 255) (hf : (w.extractLsb' 0 23).toNat = 0) :
    binary32Value w = if w.getLsbD 31 then .negInf else .posInf := by
  simp only [binary32Value, if_pos he, if_pos hf]

/-- Exponent 0: zero and the subnormal numbers. -/
theorem binary32Value_subnormal (he : (w.extractLsb' 23 8).toNat = 0) :
    binary32Value w = .finite
      ((if w.getLsbD 31 then -1 else 1) * (w.extractLsb' 0 23).toNat * (2 : ℚ) ^ (-149 : ℤ)) := by
  have hfinite : (w.extractLsb' 23 8).toNat ≠ 255 := by omega
  simp only [binary32Value, if_neg hfinite, if_pos he, withSign_scaleByPow2]

/-- The other exponents carry the leading 1 of the significand. -/
theorem binary32Value_normal (he : (w.extractLsb' 23 8).toNat ≠ 0) (hfinite : (w.extractLsb' 23 8).toNat ≠ 255) :
    binary32Value w = .finite ((if w.getLsbD 31 then -1 else 1) * (2 ^ 23 + (w.extractLsb' 0 23).toNat) *
      (2 : ℚ) ^ (((w.extractLsb' 23 8).toNat : ℤ) - 150)) := by
  simp only [binary32Value, if_neg hfinite, if_neg he, withSign_scaleByPow2]
  push_cast
  rfl

end

/-- Settles O31, by the cases of the exponent. -/
theorem defaultPowerFormatIsBinary32 : Obligations.DefaultPowerFormatIsBinary32 :=
  fun _ => ⟨binary32Value_nan, binary32Value_infinity, binary32Value_subnormal, binary32Value_normal⟩

/-! ## The clamp -/

theorem clamp_inRange {p : PowerValue} {q : Rat} (h : clamp p = some q) : -1 ≤ q ∧ q ≤ 1 := by
  cases p with
  | finite x => cases h; exact ⟨neg_one_le_clampQ x, clampQ_le_one x⟩
  | posInf | negInf => cases h; norm_num
  | nan => cases h

theorem clamp_finite_of_inRange {q : Rat} (hlow : -1 ≤ q) (hhigh : q ≤ 1) : clamp (.finite q) = some q :=
  congrArg some (clampQ_of_inRange q hlow hhigh)

/-- Settles O28: a clamped value is in range, and the clamp leaves what is in range; a negative zero has exponent and
fraction 0. -/
theorem clampLandsInRange : Obligations.ClampLandsInRange := by
  refine ⟨fun _ => rfl, rfl, rfl, rfl, fun p q h => ?_, ?_⟩
  · obtain ⟨hlow, hhigh⟩ := clamp_inRange h
    exact ⟨hlow, hhigh, clamp_finite_of_inRange hlow hhigh⟩
  · have hzero : ((0x80000000#32).extractLsb' 0 23).toNat = 0 := rfl
    rw [Power.value, binary32Value_subnormal rfl, hzero, Nat.cast_zero, mul_zero, zero_mul]

/-! ## The magnitude byte -/

theorem magnitudeByte_of_clamp {p : PowerValue} {q : Rat} (h : clamp p = some q) :
    magnitudeByte p = some (magnitudeOf q) :=
  congrArg (Option.map magnitudeOf) h

/-- The magnitude byte is that of the clamped value, which the clamp leaves. -/
theorem magnitudeByte_clamp {p : PowerValue} {q : Rat} (h : clamp p = some q) :
    magnitudeByte p = magnitudeByte (.finite q) := by
  obtain ⟨hlow, hhigh⟩ := clamp_inRange h
  rw [magnitudeByte_of_clamp h, magnitudeByte_of_clamp (clamp_finite_of_inRange hlow hhigh)]

/-- The magnitude byte of a finite power is the floor of its magnitude, cut at 1, times 255 (R110, R111). -/
theorem magnitudeByte_finite_iff {q : Rat} {m : Byte} :
    magnitudeByte (.finite q) = some m ↔ (m.toNat : ℤ) = ⌊min |q| 1 * 255⌋ := by
  have hbyte : ((magnitudeOf (clampQ q)).toNat : ℤ) = ⌊min |q| 1 * 255⌋ := by
    rw [← abs_clampQ]
    exact magnitudeOf_toNat _ (abs_le.mpr ⟨neg_one_le_clampQ q, clampQ_le_one q⟩)
  rw [magnitudeByte_of_clamp rfl, Option.some_inj, ← hbyte, Nat.cast_inj, BitVec.toNat_inj, eq_comm]

theorem magnitudeByte_neg (q : Rat) : magnitudeByte (.finite (-q)) = magnitudeByte (.finite q) := by
  refine Option.ext fun m => ?_
  rw [magnitudeByte_finite_iff, magnitudeByte_finite_iff, abs_neg]

/-- 255 is the byte of the powers that the clamp cuts, and of 1 and -1. -/
theorem magnitudeByte_eq_255_iff {q : Rat} : magnitudeByte (.finite q) = some 255#8 ↔ 1 ≤ |q| := by
  rw [magnitudeByte_finite_iff]
  constructor
  · intro hbyte
    have hfull : ((255 : ℤ) : ℚ) ≤ min |q| 1 * 255 := Int.le_floor.mp hbyte.le
    push_cast at hfull
    linarith [min_le_left |q| 1]
  · intro hone
    rw [min_eq_right hone, one_mul, Int.floor_ofNat]
    rfl

theorem magnitudeByte_posInf : magnitudeByte .posInf = some 255#8 :=
  (magnitudeByte_clamp rfl).trans (magnitudeByte_eq_255_iff.mpr (by norm_num))

theorem magnitudeByte_negInf : magnitudeByte .negInf = some 255#8 :=
  (magnitudeByte_clamp rfl).trans (magnitudeByte_eq_255_iff.mpr (by norm_num))

/-- The byte of the k-th step of the magnitude is k. -/
theorem magnitudeByte_step {k : Nat} (hk : k ≤ 255) :
    magnitudeByte (.finite ((k : Rat) / 255)) = some (BitVec.ofNat 8 k) := by
  have hle : (k : ℚ) / 255 ≤ 1 := by
    rw [div_le_one (by norm_num)]
    exact_mod_cast hk
  rw [magnitudeByte_finite_iff, abs_of_nonneg (by positivity), min_eq_left hle, div_mul_cancel₀ _ (by norm_num),
    Int.floor_natCast, BitVec.toNat_ofNat, Nat.mod_eq_of_lt (by omega)]

/-- A magnitude below the first step truncates to 0. -/
theorem magnitudeByte_of_abs_lt {q : Rat} (h : |q| < 1 / 255) : magnitudeByte (.finite q) = some 0#8 := by
  have hfloor : ⌊|q| * 255⌋ = 0 := Int.floor_eq_zero_iff.mpr ⟨by positivity, by linarith⟩
  rw [magnitudeByte_finite_iff, min_eq_left (by linarith), hfloor]
  rfl

theorem magnitudeByte_mono {p q : Rat} {m n : Byte} (h : |p| ≤ |q|) (hm : magnitudeByte (.finite p) = some m)
    (hn : magnitudeByte (.finite q) = some n) : m.toNat ≤ n.toNat := by
  rw [magnitudeByte_finite_iff] at hm hn
  rw [← Nat.cast_le (α := ℤ), hm, hn]
  gcongr

/-- Settles O29: the exact floor, and its corner cases. -/
theorem magnitudeByteTruncates : Obligations.MagnitudeByteTruncates := by
  refine ⟨fun p q h => ?_, ?_, ?_, ?_, magnitudeByte_neg, fun _ => magnitudeByte_eq_255_iff,
    fun _ => magnitudeByte_of_abs_lt, fun _ => magnitudeByte_step, fun _ _ _ _ => magnitudeByte_mono⟩
  · exact ⟨magnitudeOf q, magnitudeByte_of_clamp h, magnitudeOf_toNat q (abs_le.mpr (clamp_inRange h))⟩
  · exact magnitudeByte_eq_255_iff.mpr (by norm_num)
  · exact magnitudeByte_of_abs_lt (by norm_num)
  · rw [magnitudeByte_finite_iff, eq_comm, Int.floor_eq_iff]
    norm_num

/-! ## The direction and the marshalled command -/

/-- The clamp keeps the sign (R112). -/
theorem forward_finite (q : Rat) : forward (.finite q) = some (decide (0 ≤ q)) :=
  congrArg some (decide_eq_decide.mpr (clampQ_nonneg_iff q))

/-- The direction chooses the command, and the magnitude byte is its operand (R113). -/
theorem marshalPower_eq {p : PowerValue} {d : Bool} {m : Byte} (fwd rev : Byte → Instr) (hd : forward p = some d)
    (hm : magnitudeByte p = some m) : marshalPower fwd rev p = some (if d then fwd m else rev m) := by
  obtain ⟨q, hq, rfl⟩ := Option.map_eq_some_iff.mp hd
  cases hm.symm.trans (magnitudeByte_of_clamp hq)
  simp only [marshalPower, hq, Option.map_some, decide_eq_true_eq]

/-- Settles O30: the clamp keeps the sign, and the magnitude byte of a small power is 0. -/
theorem directionIsTheSign : Obligations.DirectionIsTheSign := by
  refine ⟨forward_finite, rfl, rfl, rfl, ?_, ?_,
    fun fwd rev => marshalPower_eq (d := true) fwd rev rfl magnitudeByte_posInf,
    fun fwd rev => marshalPower_eq (d := false) fwd rev rfl magnitudeByte_negInf, fun _ _ => rfl⟩
  · intro fwd rev q m hm
    simpa only [decide_eq_true_eq] using marshalPower_eq fwd rev (forward_finite q) hm
  · intro fwd rev q hlow hneg
    have hzero : magnitudeByte (.finite q) = some 0#8 :=
      magnitudeByte_of_abs_lt (by rw [abs_of_neg hneg]; linarith)
    have h := marshalPower_eq fwd rev (forward_finite q) hzero
    rwa [decide_eq_false (not_le.mpr hneg)] at h

end Sys2Proof.Machine
end

section
/-! SUPPORT. The motor operations (R115 to R117, R119) and the one write of a set operation (R121). -/

namespace Sys2Proof.Machine

/-! ## A motor operation and its pair of commands -/

/-- The Forward and the Reverse command of a motor operation, as it marshals them (R115 to R117). -/
inductive MotorCommands : OpName → (Byte → Instr) → (Byte → Instr) → Prop where
  | setMotorA : MotorCommands .setMotorA .setMotorAForward .setMotorAReverse
  | setMotorB : MotorCommands .setMotorB .setMotorBForward .setMotorBReverse
  | setMotors : MotorCommands .setMotors .setMotorsForward .setMotorsReverse

/-- The pair of R121 (e) is the pair the operation marshals. -/
theorem MotorCommands.of_motorPair {o : OpName} {cf cr : Cmd} (h : o.motorPair = some (cf, cr)) :
    ∃ fwd rev, MotorCommands o fwd rev ∧ ∀ m, (fwd m).cmd = cf ∧ (rev m).cmd = cr := by
  cases o
  case setMotorA => cases h; exact ⟨_, _, .setMotorA, fun _ => ⟨rfl, rfl⟩⟩
  case setMotorB => cases h; exact ⟨_, _, .setMotorB, fun _ => ⟨rfl, rfl⟩⟩
  case setMotors => cases h; exact ⟨_, _, .setMotors, fun _ => ⟨rfl, rfl⟩⟩
  all_goals cases h

section
variable {o : OpName} {fwd rev : Byte → Instr}

/-- Both commands are written in the format REQ2, with the magnitude byte (R52, R98). -/
theorem MotorCommands.isReq2 (h : MotorCommands o fwd rev) (d : Bool) (m : Byte) :
    (if d then fwd m else rev m).cmd.isQuery = false ∧ (if d then fwd m else rev m).extra = [m] ∧
      (if d then fwd m else rev m).cmd ≠ .allOff := by
  cases h <;> cases d <;> exact ⟨rfl, rfl, nofun⟩

variable {q : Request} {s : State}

theorem MotorCommands.accept_eq (h : MotorCommands o fwd rev) (hop : q.op = o) (hready : s.ready = true) :
    accept q s = runMotor o fwd rev q.power s := by
  cases h <;> simp only [accept, hop] <;> exact requireReady_of_ready hready _

/-- NaN is refused, with nothing else changed (R119). -/
theorem MotorCommands.accept_nan (h : MotorCommands o fwd rev) (hop : q.op = o) (hready : s.ready = true)
    (hnan : q.power.value = .nan) : accept q s = .next (afterResult (.refused .badOperand) s) := by
  rw [h.accept_eq hop hready, runMotor, hnan]
  rfl

variable {d : Bool} {m : Byte}

/-- Another power issues the command that its direction chooses, with its magnitude byte (R113). -/
theorem MotorCommands.accept_marshalled (h : MotorCommands o fwd rev) (hop : q.op = o) (hready : s.ready = true)
    (hd : forward q.power.value = some d) (hm : magnitudeByte q.power.value = some m) :
    accept q s = exec (if d then fwd m else rev m) { s with op := some o } := by
  simp only [h.accept_eq hop hready, runMotor, marshalPower_eq fwd rev hd hm]

/-- With an answer to come the operation ends in the same step: one write of the chosen command (R121 (d), (e)). -/
theorem MotorCommands.accept_answered {a : Answer} {rest : List Answer} (h : MotorCommands o fwd rev) (hop : q.op = o)
    (hready : s.ready = true) (hd : forward q.power.value = some d) (hm : magnitudeByte q.power.value = some m)
    (hanswers : s.answers = a :: rest) :
    accept q s = .next (afterReq2 (if d then fwd m else rev m).cmd (if d then fwd m else rev m).cmd.enc m a rest
      (writeResult a) s) := by
  obtain ⟨hwrites, hextra, hother⟩ := h.isReq2 d m
  rw [h.accept_marshalled hop hready hd hm]
  exact exec_req2_answered (s := { s with op := some o }) hwrites hextra (fun hc => absurd hc hother) hanswers

end

/-- Every power but NaN has a direction, its sign (R112). -/
theorem forward_of_ne_nan {p : PowerValue} (h : p ≠ .nan) : forward p = some p.isNonneg := by
  cases p with
  | finite q => exact forward_finite q
  | posInf | negInf => rfl
  | nan => exact absurd rfl h

/-- Where there is a direction there is a magnitude (R111, R112). -/
theorem magnitudeByte_of_forward {p : PowerValue} {d : Bool} (h : forward p = some d) :
    ∃ m, magnitudeByte p = some m := by
  obtain ⟨q, hq, -⟩ := Option.map_eq_some_iff.mp h
  exact ⟨_, magnitudeByte_of_clamp hq⟩

/-! ## The one write of a set operation -/

/-- Going from `s` to `t` has made no event, or one write, with which the operation has ended (R121 (f)). -/
def WritesAtMostOnce (s t : State) : Prop :=
  t.trace = s.trace ∨ ∃ (bytes : List Byte) (ok : Bool), t.trace = s.trace ++ [.write bytes ok] ∧ t.phase = .idle

/-- A set operation issues commands that only write (R98, R114 to R118). -/
theorem OpName.isQuery_of_issues {o : OpName} {c : Cmd} (hset : o.isSet = true) (hissues : o.issues c = true) :
    c.isQuery = false := by
  cases o
  case setLed | stop => obtain rfl := eq_of_beq hissues; rfl
  case setMotors | setMotorA | setMotorB =>
    rcases (Bool.or_eq_true _ _).mp hissues with h | h <;> (obtain rfl := eq_of_beq h; rfl)
  all_goals cases hset

/-- The end of `write_command` sends nothing more. -/
theorem writeEndOf_ends (c : Cmd) (ok : Bool) (s : State) :
    (writeEndOf c ok s).trace = s.trace ∧ (writeEndOf c ok s).phase = .idle := by
  rcases writeEndOf_cases c ok s with ⟨h, -⟩ | ⟨-, -, h⟩ <;> rw [h] <;> exact ⟨rfl, rfl⟩

theorem awaitWrite_writesAtMostOnce (c : Cmd) (s : State) : WritesAtMostOnce s (awaitWrite (writeEndOf c) s) := by
  match ha : s.answers with
  | [] => rw [awaitWrite_nil _ _ ha]; exact .inl rfl
  | a :: rest =>
    rw [awaitWrite_cons _ _ a rest ha]
    obtain ⟨htrace, hphase⟩ := writeEndOf_ends c a.isOk
      { s with answers := rest, trace := s.trace ++ [.write s.txFrame a.isOk] }
    exact .inr ⟨_, _, htrace, hphase⟩

/-- A command that only writes. -/
theorem exec_writesAtMostOnce {i : Instr} {s t : State} (hwrites : i.cmd.isQuery = false) (h : exec i s = .next t) :
    WritesAtMostOnce s t := by
  rw [exec_write i s hwrites, writeCommand_fits _ _ _ _ (extra_length_le i)] at h
  cases h
  exact awaitWrite_writesAtMostOnce i.cmd { s.loadFrame i.cmd i.extra with phase := .writing }

/-- A set operation, as it is accepted: refused, or its command issued. -/
theorem accept_writesAtMostOnce {q : Request} {s t : State} (hset : q.op.isSet = true) (h : accept q s = .next t) :
    WritesAtMostOnce s t := by
  cases accept_cases q s with
  | notReady h' | badOperand h' => cases h'.symm.trans h; exact .inl rfl
  | issued i h' _ hissues =>
    exact (exec_writesAtMostOnce (OpName.isQuery_of_issues hset hissues) (h'.symm.trans h) :)
  | alreadyOpen _ hop | closed _ hop | opening _ hop => rw [hop] at hset; cases hset

/-- A set operation in progress has its write outstanding (R14). -/
theorem Inv.step_of_isSet {s : State} {o : OpName} (hinv : Inv s) (hbusy : s.phase ≠ .idle) (hop : s.op = some o)
    (hset : o.isSet = true) : step s = .next (awaitWrite (writeEndOf s.cur) s) := by
  have hopening : s.busOpening = false := by
    rw [← Bool.not_eq_true]
    intro hopening
    obtain ⟨-, hopen⟩ := hinv.opening hopening
    cases hop.symm.trans hopen
    cases hset
  have hwrites : s.cur.isQuery = false := OpName.isQuery_of_issues hset (hinv.opIssues o hop hopening)
  cases hphase : s.phase with
  | idle => exact absurd hphase hbusy
  | writing => exact step_writes hphase hopening hwrites
  | reading => cases hwrites.symm.trans (hinv.readingQuery hphase)

theorem step_writesAtMostOnce {s t : State} {o : OpName} (hinv : Inv s) (hdriven : HostDriven s)
    (hset : o.isSet = true) (hworks : WorksOn s o) (h : step s = .next t) : WritesAtMostOnce s t := by
  rcases hworks with ⟨hbusy, hop⟩ | ⟨hidle, q, rest, hrequests, rfl⟩
  · cases (hinv.step_of_isSet hbusy hop hset).symm.trans h
    exact awaitWrite_writesAtMostOnce s.cur s
  · obtain ⟨hslot, -⟩ := hdriven
    rw [step_accepts hidle hslot hrequests] at h
    exact (accept_writesAtMostOnce hset h : WritesAtMostOnce { s with requests := rest } t)

/-- Settles O41: the operation marshals the pair of R121 (e), and the step that works on a set operation takes up its
`write_command`. -/
theorem motorOperationsMarshalTheirPower : Obligations.MotorOperationsMarshalTheirPower := by
  refine ⟨fun q s hready => ⟨?_, fun d m hd hm => ⟨?_, ?_, ?_⟩, ?_⟩, ?_⟩
  · rintro (hop | hop | hop) hnan
    · exact MotorCommands.setMotorA.accept_nan hop hready hnan
    · exact MotorCommands.setMotorB.accept_nan hop hready hnan
    · exact MotorCommands.setMotors.accept_nan hop hready hnan
  · exact fun hop => MotorCommands.setMotorA.accept_marshalled hop hready hd hm
  · exact fun hop => MotorCommands.setMotorB.accept_marshalled hop hready hd hm
  · exact fun hop => MotorCommands.setMotors.accept_marshalled hop hready hd hm
  · intro cf cr a rest hpair hnan hanswers
    obtain ⟨fwd, rev, hmotor, hcmd⟩ := MotorCommands.of_motorPair hpair
    have hd := forward_of_ne_nan hnan
    obtain ⟨m, hm⟩ := magnitudeByte_of_forward hd
    obtain ⟨hfwd, hrev⟩ := hcmd m
    refine ⟨_, m, ?_, hm, hmotor.accept_answered rfl hready hd hm hanswers⟩
    rw [apply_ite Instr.cmd, hfwd, hrev]
  · intro s t o es hinv hdriven hset hworks h htrace
    rcases step_writesAtMostOnce hinv hdriven hset hworks h with hnone | ⟨bytes, ok, hone, hphase⟩
    · exact .inl (List.append_right_eq_self.mp (htrace.symm.trans hnone))
    · exact .inr ⟨bytes, ok, List.append_cancel_left (htrace.symm.trans hone), hphase⟩

end Sys2Proof.Machine
end

section
/-! SUPPORT. The typed readings of a response payload (R142, R144, R145): the fault flag, the raw reading and its
voltage. -/

namespace Sys2Proof.Machine

/-- Settles O27: the flag is that of byte 1 alone. -/
theorem faultFlagIsPayloadByteZero : Obligations.FaultFlagIsPayloadByteZero := by
  refine ⟨fun f => ?_, fun f g hbyte => ?_⟩
  · rw [faultOf_eq, decide_eq_true_eq]
  · rw [faultOf_eq, faultOf_eq, hbyte]

/-! ## The raw reading -/

theorem rawOf_eq_iff {f : Frame} {r : Half} : rawOf f = r ↔ 256 * f.b1.toNat + f.b2.toNat = r.toNat := by
  rw [← rawOf_toNat, BitVec.toNat_inj]

/-- A frame that carries the high and the low byte of a reading carries that reading (R144). -/
theorem rawOf_bytes (r : Half) (b0 b3 b4 b5 : Byte) :
    rawOf ⟨b0, r.extractLsb' 8 8, r.extractLsb' 0 8, b3, b4, b5⟩ = r := by
  have hr := r.isLt
  simp only [rawOf_eq_iff, BitVec.extractLsb'_toNat, Nat.shiftRight_eq_div_pow]
  omega

/-- Settles O32: the two bytes fix the reading, and every reading has its two bytes. -/
theorem rawReadingIsBigEndian : Obligations.RawReadingIsBigEndian := by
  refine ⟨rawOf_toNat, fun f g hhigh hlow => ?_, fun r => ⟨_, rawOf_bytes r 0#8 0#8 0#8 0#8⟩, fun f hhigh hlow => ?_⟩
  · rw [rawOf_eq_iff, rawOf_toNat, hhigh, hlow]
  · rw [rawOf_eq_iff, hhigh, hlow]
    rfl

/-! ## The voltage -/

theorem voltsOf_nonneg (r : Half) : 0 ≤ voltsOf r := by
  rw [voltsOf_eq]
  positivity

/-- A greater reading is a greater voltage, above 1023 too (R148 (c)). -/
theorem voltsOf_lt_voltsOf {r u : Half} (h : r < u) : voltsOf r < voltsOf u := by
  have hcast : (r.toNat : ℚ) < u.toNat := Nat.cast_lt.mpr h
  rw [voltsOf_eq, voltsOf_eq]
  gcongr

/-- Settles O33: 11/310 volts a step, and the values of the readings that R145 names. -/
theorem voltageIsElevenOverThreeHundredTen : Obligations.VoltageIsElevenOverThreeHundredTen := by
  refine ⟨fun r => ?_, voltsOf_eq, voltsOf_nonneg, fun _ _ => voltsOf_lt_voltsOf, ?_, ?_, ?_, ?_, ?_⟩
  · rw [voltsOf_eq]
    ring
  all_goals
    rw [voltsOf_eq, BitVec.toNat_ofNat]
    norm_num

end Sys2Proof.Machine
end

section
/-! SUPPORT. The default format of the voltage (R146): `toBinary32` answers the pattern of a nearest finite binary32 value,
ties to even. -/

namespace Sys2Proof.Machine

/-! ## Rounding to a whole number -/

/-- `m` is the whole number nearest to `t`, and the even one of two that are as near. -/
structure IsNearestEven (m : ℕ) (t : ℚ) : Prop where
  near : |(m : ℚ) - t| ≤ 1 / 2
  tie : |(m : ℚ) - t| = 1 / 2 → Even m

theorem IsNearestEven.of_lt {m : ℕ} {t : ℚ} (h : |(m : ℚ) - t| < 1 / 2) : IsNearestEven m t :=
  ⟨h.le, fun htie => absurd htie h.ne⟩

/-- A quotient is the whole quotient and the fraction of its remainder. -/
theorem natCast_div_eq (n : ℕ) {d : ℕ} (hd : 0 < d) : (n : ℚ) / d = (n / d : ℕ) + ((n % d : ℕ) : ℚ) / d := by
  field_simp
  exact_mod_cast (Nat.div_add_mod n d).symm

/-- The fraction `f` of the remainder decides the way the quotient is rounded. -/
theorem roundHalfEven_isNearestEven (n : ℕ) {d : ℕ} (hd : 0 < d) : IsNearestEven (roundHalfEven n d) (n / d) := by
  have hdq : (0 : ℚ) < d := Nat.cast_pos.mpr hd
  obtain ⟨f, hf⟩ : ∃ f : ℚ, f = (n % d : ℕ) / d := ⟨_, rfl⟩
  have hnonneg : 0 ≤ f := by rw [hf]; positivity
  have hlt : f < 1 := by rw [hf, div_lt_one hdq]; exact_mod_cast Nat.mod_lt n hd
  have hdown : 2 * (n % d) < d ↔ f < 1 / 2 := by
    rw [hf, div_lt_div_iff₀ hdq two_pos, mul_comm, one_mul]
    norm_cast
  have hup : d < 2 * (n % d) ↔ 1 / 2 < f := by
    rw [hf, div_lt_div_iff₀ two_pos hdq, mul_comm _ (2 : ℚ), one_mul]
    norm_cast
  rw [natCast_div_eq n hd, ← hf]
  simp only [roundHalfEven, hdown, hup]
  split_ifs with hlow hhigh
  · exact .of_lt (by rw [sub_add_cancel_left, abs_neg, abs_of_nonneg hnonneg]; exact hlow)
  · refine .of_lt ?_
    push_cast
    rw [add_sub_add_left_eq_sub, abs_of_pos (sub_pos.mpr hlt)]
    linarith
  · have htie : f = 1 / 2 := le_antisymm (not_lt.mp hhigh) (not_lt.mp hlow)
    rw [htie]
    rcases Nat.mod_two_eq_zero_or_one (n / d) with heven | hodd
    · exact ⟨by rw [heven]; norm_num, fun _ => by rw [heven]; exact Nat.even_iff.mpr heven⟩
    · exact ⟨by rw [hodd]; norm_num, fun _ => by rw [hodd]; exact (Nat.odd_iff.mpr hodd).add_one⟩

section
variable {m : ℕ} {t : ℚ}

/-- Another whole number is a whole step away, so at least half a step from `t`. -/
theorem IsNearestEven.le_abs_sub (h : IsNearestEven m t) {k : ℤ} (hne : k ≠ m) : 1 / 2 ≤ |(k : ℚ) - t| := by
  have hstep : (1 : ℚ) ≤ |(k : ℚ) - m| := by exact_mod_cast Int.one_le_abs (sub_ne_zero.mpr hne)
  have htriangle := abs_sub_le (k : ℚ) t m
  rw [abs_sub_comm t] at htriangle
  linarith [h.near]

theorem IsNearestEven.nearest (h : IsNearestEven m t) (k : ℤ) : |(m : ℚ) - t| ≤ |(k : ℚ) - t| := by
  by_cases hk : k = m
  · rw [hk, Int.cast_natCast]
  · exact h.near.trans (h.le_abs_sub hk)

theorem IsNearestEven.eq_or_even (h : IsNearestEven m t) {k : ℤ} (heq : |(k : ℚ) - t| = |(m : ℚ) - t|) :
    k = m ∨ Even m := by
  by_cases hk : k = m
  · exact .inl hk
  · exact .inr (h.tie (le_antisymm h.near (heq ▸ h.le_abs_sub hk)))

/-- Rounding does not go past a whole number. -/
theorem IsNearestEven.le_of_le (h : IsNearestEven m t) {k : ℕ} (hk : t ≤ k) : m ≤ k := by
  have hnear := h.nearest k
  rw [Int.cast_natCast, abs_of_nonneg (sub_nonneg.mpr hk)] at hnear
  exact_mod_cast (sub_le_sub_iff_right t).mp ((le_abs_self _).trans hnear)

theorem IsNearestEven.ge_of_ge (h : IsNearestEven m t) {k : ℕ} (hk : k ≤ t) : k ≤ m := by
  have hnear := h.nearest k
  rw [Int.cast_natCast, abs_sub_comm, abs_sub_comm (k : ℚ), abs_of_nonneg (sub_nonneg.mpr hk)] at hnear
  exact_mod_cast (sub_le_sub_iff_left t).mp ((le_abs_self _).trans hnear)

theorem abs_mul_sub_eq {u : ℚ} (hu : 0 < u) (k q : ℚ) : |k * u - q| = |k - q / u| * u := by
  rw [← abs_of_pos hu, ← abs_mul, sub_mul, abs_of_pos hu, div_mul_cancel₀ _ hu.ne']

/-- In steps of `u`: no whole number of steps is nearer to `q`, and another as near only if `m` is even. -/
theorem IsNearestEven.nearest_steps {u q : ℚ} (hu : 0 < u) (h : IsNearestEven m (q / u)) (k : ℤ) :
    |m * u - q| ≤ |k * u - q| ∧ (|k * u - q| = |m * u - q| → k = m ∨ Even m) := by
  rw [abs_mul_sub_eq hu, abs_mul_sub_eq hu, mul_le_mul_iff_left₀ hu, mul_left_inj' hu.ne']
  exact ⟨h.nearest k, h.eq_or_even⟩

end

/-! ## The finite binary32 values -/

/-- The pattern of an exponent and a fraction, with sign bit 0. -/
def binary32Pattern (e f : ℕ) : BitVec 32 := BitVec.ofNat 32 (e * 2 ^ 23 + f)

section
variable {e f : ℕ}

theorem binary32Pattern_sign (h : e * 2 ^ 23 + f < 2 ^ 31) : (binary32Pattern e f).getLsbD 31 = false := by
  rw [binary32Pattern, BitVec.getLsbD_ofNat, Nat.testBit_lt_two_pow h, Bool.and_false]

theorem binary32Pattern_exponent (he : e < 256) (hf : f < 2 ^ 23) :
    ((binary32Pattern e f).extractLsb' 23 8).toNat = e := by
  rw [binary32Pattern, BitVec.extractLsb'_toNat, BitVec.toNat_ofNat, Nat.shiftRight_eq_div_pow]
  omega

theorem binary32Pattern_fraction (hf : f < 2 ^ 23) : ((binary32Pattern e f).extractLsb' 0 23).toNat = f := by
  rw [binary32Pattern, BitVec.extractLsb'_toNat, BitVec.toNat_ofNat, Nat.shiftRight_zero]
  omega

theorem binary32Value_pattern_zero (hf : f < 2 ^ 23) :
    binary32Value (binary32Pattern 0 f) = .finite (f * (2 : ℚ) ^ (-149 : ℤ)) := by
  rw [binary32Value_subnormal (binary32Pattern_exponent (by omega) hf), binary32Pattern_sign (by omega),
    binary32Pattern_fraction hf]
  simp

theorem binary32Value_pattern (hpos : e ≠ 0) (he : e < 255) (hf : f < 2 ^ 23) :
    binary32Value (binary32Pattern e f) = .finite ((2 ^ 23 + f) * (2 : ℚ) ^ ((e : ℤ) - 150)) := by
  have hexp := binary32Pattern_exponent (he.trans (by norm_num)) hf
  rw [binary32Value_normal (by rwa [hexp]) (by rw [hexp]; exact he.ne), binary32Pattern_sign (by omega), hexp,
    binary32Pattern_fraction hf]
  simp

end

/-- A full fraction carries into the exponent. -/
theorem binary32Pattern_carry (e f : ℕ) : binary32Pattern e (2 ^ 23 + f) = binary32Pattern (e + 1) f := by
  rw [binary32Pattern, binary32Pattern, Nat.succ_mul, Nat.add_assoc]

/-- `m` steps of `2^(j - 149)`. The leading 1 of the significand makes the exponent `j + 1`, and a significand that
rounding has filled makes it `j + 2`, with fraction 0. -/
theorem binary32Value_steps {j m : ℕ} (hj : j ≤ 252) (hm : m ≤ 2 ^ 24) (hnormal : j = 0 ∨ 2 ^ 23 ≤ m) :
    binary32Value (binary32Pattern j m) = .finite (m * (2 : ℚ) ^ ((j : ℤ) - 149)) := by
  rcases lt_or_ge m (2 ^ 23) with hsub | hlead
  · obtain rfl : j = 0 := hnormal.resolve_right (not_le.mpr hsub)
    exact binary32Value_pattern_zero hsub
  obtain ⟨f, rfl⟩ := Nat.exists_eq_add_of_le hlead
  rcases lt_or_ge f (2 ^ 23) with hf | hfull
  · rw [binary32Pattern_carry, binary32Value_pattern j.succ_ne_zero (by omega) hf]
    push_cast
    ring_nf
  · obtain rfl : f = 2 ^ 23 + 0 := by omega
    have hexp : ((j + 1 + 1 : ℕ) : ℤ) - 150 = ((j : ℤ) - 149) + 1 := by omega
    rw [binary32Pattern_carry, binary32Pattern_carry, binary32Value_pattern (by omega) (by omega) (by norm_num), hexp,
      zpow_add_one₀ two_ne_zero]
    push_cast
    ring_nf

theorem abs_sign_mul (negative : Bool) (m : ℕ) : |(if negative then -1 else 1) * (m : ℤ)| = m := by
  cases negative <;> simp

/-- Every finite value is a whole number of steps of some `2^(j - 149)`, within the significand. -/
theorem binary32Value_finite {w : BitVec 32} {x : ℚ} (h : binary32Value w = .finite x) :
    ∃ (j : ℕ) (k : ℤ), |k| < 2 ^ 24 ∧ x = k * (2 : ℚ) ^ ((j : ℤ) - 149) := by
  have hf : (w.extractLsb' 0 23).toNat < 2 ^ 23 := (w.extractLsb' 0 23).isLt
  by_cases hzero : (w.extractLsb' 23 8).toNat = 0
  · cases (binary32Value_subnormal hzero).symm.trans h
    refine ⟨0, (if w.getLsbD 31 then -1 else 1) * ((w.extractLsb' 0 23).toNat : ℕ), ?_, by push_cast; rfl⟩
    rw [abs_sign_mul]
    omega
  by_cases hspecial : (w.extractLsb' 23 8).toNat = 255
  · by_cases hfrac : (w.extractLsb' 0 23).toNat = 0
    · have hinf := (binary32Value_infinity hspecial hfrac).symm.trans h
      split at hinf <;> cases hinf
    · cases (binary32Value_nan hspecial hfrac).symm.trans h
  · cases (binary32Value_normal hzero hspecial).symm.trans h
    refine ⟨(w.extractLsb' 23 8).toNat - 1,
      (if w.getLsbD 31 then -1 else 1) * ((2 ^ 23 + (w.extractLsb' 0 23).toNat : ℕ) : ℤ), ?_, ?_⟩
    · rw [abs_sign_mul]
      omega
    · have hexp : (((w.extractLsb' 23 8).toNat - 1 : ℕ) : ℤ) - 149 = (w.extractLsb' 23 8).toNat - 150 := by omega
      rw [hexp]
      push_cast
      rfl

/-- Seen from the steps of `2^(j - 149)`: a finite value is a whole number of them, or its exponent is less and it is
below `2^23` of them. -/
theorem binary32Value_finite_steps {w : BitVec 32} {x : ℚ} (h : binary32Value w = .finite x) (j : ℕ) :
    (∃ k : ℤ, x = k * (2 : ℚ) ^ ((j : ℤ) - 149)) ∨ j ≠ 0 ∧ x < 2 ^ 23 * (2 : ℚ) ^ ((j : ℤ) - 149) := by
  obtain ⟨i, k, hk, rfl⟩ := binary32Value_finite h
  rcases le_or_gt j i with hle | hlt
  · obtain ⟨n, rfl⟩ := Nat.exists_eq_add_of_le hle
    refine .inl ⟨k * 2 ^ n, ?_⟩
    have hexp : ((j + n : ℕ) : ℤ) - 149 = n + ((j : ℤ) - 149) := by omega
    rw [hexp, zpow_add₀ two_ne_zero, zpow_natCast]
    push_cast
    ring
  · refine .inr ⟨by omega, ?_⟩
    have hkq : (k : ℚ) < 2 ^ 24 := by exact_mod_cast (abs_lt.mp hk).2
    calc (k : ℚ) * 2 ^ ((i : ℤ) - 149)
      _ < 2 ^ 24 * 2 ^ ((i : ℤ) - 149) := by gcongr
      _ ≤ 2 ^ 24 * 2 ^ ((j : ℤ) - 149 - 1) := by
        gcongr ?_ * ?_
        exact zpow_le_zpow_right₀ one_le_two (by omega)
      _ = 2 ^ 23 * 2 ^ ((j : ℤ) - 149) := by rw [zpow_sub_one₀ two_ne_zero]; ring

/-! ## The rounded pattern -/

/-- `m` is `q` rounded to steps of `2^(j - 149)`, the steps of a binary32 significand for values of the size of `q`. -/
structure RoundsTo (q : ℚ) (j m : ℕ) : Prop where
  exponent : j ≤ 252
  rounded : IsNearestEven m (q / 2 ^ ((j : ℤ) - 149))
  below : q / 2 ^ ((j : ℤ) - 149) ≤ 2 ^ 24
  normal : j = 0 ∨ 2 ^ 23 ≤ q / 2 ^ ((j : ℤ) - 149)

section
variable {q : ℚ} {j m : ℕ}

theorem RoundsTo.steps_le (h : RoundsTo q j m) : m ≤ 2 ^ 24 :=
  h.rounded.le_of_le (by exact_mod_cast h.below)

theorem RoundsTo.le_steps (h : RoundsTo q j m) : j = 0 ∨ 2 ^ 23 ≤ m :=
  h.normal.imp_right fun hlead => h.rounded.ge_of_ge (by exact_mod_cast hlead)

theorem RoundsTo.value (h : RoundsTo q j m) :
    binary32Value (binary32Pattern j m) = .finite (m * (2 : ℚ) ^ ((j : ℤ) - 149)) :=
  binary32Value_steps h.exponent h.steps_le h.le_steps

theorem RoundsTo.sign (h : RoundsTo q j m) : (binary32Pattern j m).getLsbD 31 = false :=
  binary32Pattern_sign (by have := h.exponent; have := h.steps_le; omega)

/-- An even number of steps leaves the last bit 0. -/
theorem binary32Pattern_lastBit (j : ℕ) (hm : Even m) : (binary32Pattern j m).getLsbD 0 = false := by
  have heven : (j * 2 ^ 23 + m) % 2 = 0 :=
    Nat.even_iff.mp (((even_two.pow_of_ne_zero (by norm_num)).mul_left j).add hm)
  rw [binary32Pattern, BitVec.getLsbD_ofNat, Nat.testBit_zero, heven]
  rfl

/-- A finite value that is no whole number of steps has a lesser exponent, so it is further from `q` than `2^23` steps,
which lie between them. -/
theorem RoundsTo.nearest (h : RoundsTo q j m) {w : BitVec 32} {x : ℚ} (hx : binary32Value w = .finite x) :
    |m * 2 ^ ((j : ℤ) - 149) - q| ≤ |x - q| ∧
      (|x - q| = |m * 2 ^ ((j : ℤ) - 149) - q| → x = m * 2 ^ ((j : ℤ) - 149) ∨ Even m) := by
  have hu : (0 : ℚ) < 2 ^ ((j : ℤ) - 149) := by positivity
  have hsteps := h.rounded.nearest_steps hu
  rcases binary32Value_finite_steps hx j with ⟨k, rfl⟩ | ⟨hj, hbelow⟩
  · obtain ⟨hnear, htie⟩ := hsteps k
    refine ⟨hnear, fun heq => (htie heq).imp_left fun hk => ?_⟩
    rw [hk, Int.cast_natCast]
  · have hlead := (le_div_iff₀ hu).mp (h.normal.resolve_left hj)
    obtain ⟨hnear, -⟩ := hsteps (2 ^ 23)
    have hfarther : |m * 2 ^ ((j : ℤ) - 149) - q| < |x - q| := by
      refine hnear.trans_lt ?_
      rw [Int.cast_pow, Int.cast_ofNat, abs_of_nonpos (sub_nonpos.mpr hlead),
        abs_of_neg (sub_neg.mpr (hbelow.trans_le hlead)), neg_lt_neg_iff]
      exact sub_lt_sub_right hbelow q
    exact ⟨hfarther.le, fun heq => absurd heq hfarther.ne'⟩

end

/-- The step that belongs to `2^l`, the power of two below `q`, but for the least exponent. -/
theorem roundsTo_roundHalfEven {q : ℚ} {l : ℤ} {j n d : ℕ} (hfloor : 2 ^ l ≤ q) (hceil : q < 2 ^ (l + 1)) (hl : l < 127)
    (hj : max l (-126) = j - 126) (hd : 0 < d) (hscaled : (n : ℚ) / d = q / 2 ^ ((j : ℤ) - 149)) :
    RoundsTo q j (roundHalfEven n d) where
  exponent := by omega
  rounded := hscaled ▸ roundHalfEven_isNearestEven n hd
  below := by
    rw [div_le_iff₀ (by positivity), ← zpow_natCast, ← zpow_add₀ two_ne_zero]
    exact hceil.le.trans (zpow_le_zpow_right₀ one_le_two (by omega))
  normal := by
    refine or_iff_not_imp_left.mpr fun hj0 => ?_
    rw [le_div_iff₀ (by positivity), ← zpow_natCast, ← zpow_add₀ two_ne_zero]
    exact (zpow_le_zpow_right₀ one_le_two (by omega)).trans hfloor

/-- The pattern is that of the rounded value, which does not overflow. -/
theorem toBinary32_roundsTo {q : ℚ} (hnonneg : 0 ≤ q) (hlt : q < 2 ^ (127 : ℤ)) :
    ∃ j m, RoundsTo q j m ∧ toBinary32 q = binary32Pattern j m := by
  rcases hnonneg.eq_or_lt with rfl | hpos
  · exact ⟨0, 0, ⟨by norm_num, .of_lt (by norm_num), by norm_num, .inl rfl⟩, rfl⟩
  have hnum : 0 < q.num.natAbs := Int.natAbs_pos.mpr (Rat.num_pos.mpr hpos).ne'
  have hquot : (q.num.natAbs : ℚ) / q.den = q := by
    rw [Nat.cast_natAbs, abs_of_pos (Rat.num_pos.mpr hpos), Rat.num_div_den]
  obtain ⟨hfloor, hceil⟩ := log2Floor_spec _ _ hnum q.den_pos
  rw [hquot] at hfloor hceil
  have hl : log2Floor q.num.natAbs q.den < 127 := (zpow_lt_zpow_iff_right₀ one_lt_two).mp (hfloor.trans_lt hlt)
  obtain ⟨j, hj⟩ : ∃ j : ℕ, max (log2Floor q.num.natAbs q.den) (-126) = j - 126 :=
    ⟨(max (log2Floor q.num.natAbs q.den) (-126) + 126).toNat, by omega⟩
  obtain ⟨n, d, hd, hround, hscaled⟩ := roundScaled_spec q.num.natAbs q.den q.den_pos (j - 126 - 23)
  rw [hquot, sub_sub] at hscaled
  have h := roundsTo_roundHalfEven hfloor hceil hl hj hd hscaled
  have hfits : j * 2 ^ 23 + roundHalfEven n d ≤ 0x7F800000 := by
    have hexponent := h.exponent
    have hsteps := h.steps_le
    omega
  refine ⟨j, _, h, ?_⟩
  simp only [toBinary32, if_neg hnum.ne', if_neg hnonneg.not_gt, hj, hround, sub_add_cancel, Int.toNat_natCast,
    min_eq_left hfits]
  rfl

/-! ## The voltage -/

theorem voltsOf_lt (r : Half) : voltsOf r < 2 ^ (127 : ℤ) := by
  have hr : (r.toNat : ℚ) < 65536 := by exact_mod_cast r.isLt
  rw [voltsOf_eq]
  norm_num
  linarith

/-- Settles O34: every voltage is in the range in which `toBinary32` rounds to a finite pattern. -/
theorem voltageFormatRoundsToNearestEven : Obligations.VoltageFormatRoundsToNearestEven := by
  have hrounds (r : Half) := toBinary32_roundsTo (voltsOf_nonneg r) (voltsOf_lt r)
  refine ⟨fun r => ?_, fun r => ?_, by decide +kernel⟩
  · obtain ⟨j, m, h, hpattern⟩ := hrounds r
    exact hpattern ▸ h.sign
  · obtain ⟨j, m, h, hpattern⟩ := hrounds r
    rw [hpattern]
    refine ⟨_, h.value, by positivity, fun w x hx => ?_⟩
    obtain ⟨hnear, htie⟩ := h.nearest hx
    exact ⟨hnear, fun heq => (htie heq).imp_right (binary32Pattern_lastBit j)⟩

end Sys2Proof.Machine
end

section
/-! SUPPORT. What goes on the bus before a handshake has succeeded (R172, R176, R222): the frame of GetId alone. -/

namespace Sys2Proof.Machine

/-- Going from `s` to `t` has added events to the trace, and each write among them is of the one byte 99 (R87). -/
def WritesOnlyGetId (s t : State) : Prop :=
  ∃ es, t.trace = s.trace ++ es ∧ ∀ (bytes : List Byte) (ok : Bool), Event.write bytes ok ∈ es → bytes = [0x99#8]

/-- An exchange on the way from `s` has the frame of GetId to write. -/
def SendingGetId (s u : State) : Prop :=
  WritesOnlyGetId s u ∧ u.txFrame = [0x99#8]

section
variable {s u v : State} {e : Event}

theorem WritesOnlyGetId.of_trace_eq (h : u.trace = s.trace) : WritesOnlyGetId s u :=
  ⟨[], by rw [h, List.append_nil], nofun⟩

theorem WritesOnlyGetId.event (h : WritesOnlyGetId s u) (htrace : v.trace = u.trace ++ [e])
    (he : ∀ (bytes : List Byte) (ok : Bool), e = .write bytes ok → bytes = [0x99#8]) : WritesOnlyGetId s v := by
  obtain ⟨es, hes, hwrites⟩ := h
  refine ⟨es ++ [e], by rw [htrace, hes, List.append_assoc], fun bytes ok hmem => ?_⟩
  rcases List.mem_append.mp hmem with hmem | hmem
  · exact hwrites bytes ok hmem
  · exact he bytes ok (List.mem_singleton.mp hmem).symm

theorem SendingGetId.written (h : SendingGetId s u) {ok : Bool} (htrace : v.trace = u.trace ++ [.write u.txFrame ok]) :
    WritesOnlyGetId s v :=
  h.1.event htrace fun _ _ heq => (Event.write.inj heq).1.symm.trans h.2

theorem SendingGetId.read (h : SendingGetId s u) {frame : Option Frame} (htrace : v.trace = u.trace ++ [.read frame]) :
    WritesOnlyGetId s v :=
  h.1.event htrace nofun

end

/-- What takes up a valid frame sends nothing more. -/
theorem acceptOf_trace (c : Cmd) (s : State) : (acceptOf c s).trace = s.trace := by
  obtain ⟨_, htrace, -⟩ := acceptOf_ends c s
  exact htrace

/-- The cycles of an exchange write the one frame it was started with (R92, R94). -/
theorem writesOnlyGetId_exchangeRule (c : Cmd) (s : State) :
    ExchangeRule (acceptOf c) (fun _ => SendingGetId s) (fun _ => SendingGetId s) (fun _ => SendingGetId s)
      (WritesOnlyGetId s) where
  exhausted _ h := h.1
  start _ _ h := h
  writeWaits _ _ h _ := h.1
  writeFails _ _ _ h _ := h.written rfl
  writeOk _ _ _ _ h _ := ⟨h.written rfl, h.2⟩
  readWaits _ _ h _ := h.1
  readFails _ _ _ h _ := h.read rfl
  valid _ _ _ _ h _ _ := h.read (acceptOf_trace c _)
  invalid _ _ _ _ h _ _ := ⟨h.read rfl, h.2⟩

/-- OPEN writes nothing but the frame of its handshake, which follows the `BusOpen` (R170). -/
theorem awaitBusOpen_writesOnlyGetId {s u t : State} (he : awaitBusOpen u = .next t) (h : WritesOnlyGetId s u) :
    WritesOnlyGetId s t := by
  revert he
  refine awaitBusOpen_rule (Q := fun r => r = .next t → WritesOnlyGetId s t) u ?_ ?_ ?_
  · rintro - he; cases he; exact h
  · rintro rest - he; cases he; exact h.event rfl nofun
  · rintro ack rest - he; cases he
    exact (writesOnlyGetId_exchangeRule .getId s).exchange _ _
      ⟨h.event rfl nofun, loadFrame_txFrame _ .getId [] (Nat.zero_le 3)⟩

/-- With READY = 0 the one command in progress is the handshake of OPEN (R176), and its frame is 99. -/
theorem Inv.sendingGetId {s : State} (hinv : Inv s) (hdriven : HostDriven s) (hready : s.ready = false)
    (hphase : s.phase ≠ .idle) (hopening : s.busOpening = false) : s.cur = .getId ∧ s.txFrame = [0x99#8] := by
  obtain ⟨-, hbusy⟩ := hdriven
  obtain ⟨o, hop⟩ := Option.ne_none_iff_exists'.mp (hbusy hphase)
  have hopen : o = .openCodec := by
    by_contra hother
    cases hready.symm.trans ((hinv.opReady o hop).mpr hother)
  subst hopen
  have hcur : s.cur = .getId := eq_of_beq (hinv.opIssues _ hop hopening)
  obtain ⟨i, hi, hframe⟩ := hinv.frameIsRequest hphase hopening
  rw [hcur] at hi
  rw [hframe, encode, extra_of_isQuery i (by rw [hi]; rfl), hi]
  exact ⟨hcur, rfl⟩

/-- Settles O53: with READY = 0 an operation is refused, or it is OPEN or CLOSE, and what is in progress is a handshake. -/
theorem uninitializedCodecWritesOnlyGetId : Obligations.UninitializedCodecWritesOnlyGetId := by
  intro s t es hinv hdriven hready h htrace
  have hstart : WritesOnlyGetId s s := .of_trace_eq rfl
  have hsending := hinv.sendingGetId hdriven hready
  suffices WritesOnlyGetId s t by
    obtain ⟨es', htrace', hwrites⟩ := this
    cases List.append_cancel_left (htrace.symm.trans htrace')
    exact hwrites
  refine step_rule (Q := WritesOnlyGetId s) s t h ?waits ?slotCmd ?ends ?issues ?opens ?opening ?writes ?cycleWrites ?reads
  case waits => exact fun _ _ _ => hstart
  case slotCmd => exact fun _ _ _ _ hslot => by cases hdriven.1.symm.trans hslot
  case ends => exact fun _ _ _ _ _ _ _ _ => .of_trace_eq rfl
  case issues => exact fun _ _ _ _ _ _ _ hready' => by cases hready.symm.trans hready'
  case opens => exact fun _ _ _ _ _ _ _ _ he => awaitBusOpen_writesOnlyGetId he (.of_trace_eq rfl)
  case opening => exact fun _ _ _ he => awaitBusOpen_writesOnlyGetId he hstart
  case writes =>
    intro hphase hopening hwrites
    obtain ⟨hcur, -⟩ := hsending (by simp [hphase]) hopening
    rw [hcur] at hwrites
    cases hwrites
  case cycleWrites =>
    intro hphase hopening _
    exact (writesOnlyGetId_exchangeRule s.cur s).write _ s ⟨hstart, (hsending (by simp [hphase]) hopening).2⟩
  case reads =>
    intro hphase
    have hopening := hinv.busOpening_false (by simp [hphase])
    exact (writesOnlyGetId_exchangeRule s.cur s).read _ s ⟨hstart, (hsending (by simp [hphase]) hopening).2⟩

end Sys2Proof.Machine
end

section
/-! SUPPORT. The lifecycle checks of the operations (R170 to R177): what is refused, and what OPEN and CLOSE come to. -/

namespace Sys2Proof.Machine

/-! ## Refusals -/

/-- A command in progress never ends with a refusal (R195). -/
theorem Run.results_ne_refused {c : Cmd} {frame : List Byte} {s t : State} (h : Run c frame s t) (x : RefuseReason) :
    t.results ≠ s.results ++ [.refused x] := by
  cases h with
  | waits _ _ results => simp [results]
  | ended r results _ _ _ _ _ notRefused => simpa [results] using notRefused x
  | handshake _ results | teardown _ _ results => simp [results]

theorem exec_results_ne_refused {i : Instr} {s t : State} (h : exec i s = .next t) (x : RefuseReason) :
    t.results ≠ s.results ++ [.refused x] :=
  (exec_run i s t h).results_ne_refused x

/-- OPEN, once its bus opening has begun, is refused no more. -/
theorem awaitBusOpen_results_ne_refused {s t : State} (h : awaitBusOpen s = .next t) (x : RefuseReason) :
    t.results ≠ s.results ++ [.refused x] := by
  revert h
  refine awaitBusOpen_rule (Q := fun r => r = .next t → t.results ≠ s.results ++ [.refused x]) s ?_ ?_ ?_
  · rintro - h; cases h; simp
  · rintro rest - h; cases h; simp
  · rintro ack rest - h; exact exec_results_ne_refused (i := .getId) h x

/-- An operation but OPEN and CLOSE, with READY = 0 (R176). -/
theorem accept_notReady {q : Request} {s : State} (hopen : q.op ≠ .openCodec) (hclose : q.op ≠ .closeCodec)
    (hready : s.ready = false) : accept q s = .next (finish (.refused .notReady) s) := by
  cases accept_cases q s with
  | notReady h => exact h
  | alreadyOpen _ hop | opening _ hop => exact absurd hop hopen
  | closed _ hop => exact absurd hop hclose
  | badOperand _ _ _ hready' | issued _ _ _ _ hready' => cases hready.symm.trans hready'

/-- OPEN and CLOSE make another lifecycle check (R175, R177). -/
theorem accept_results_ne_notReady {q : Request} {s t : State} (hop : q.op = .openCodec ∨ q.op = .closeCodec)
    (h : accept q s = .next t) : t.results ≠ s.results ++ [.refused .notReady] := by
  cases accept_cases q s with
  | notReady _ hopen hclose | badOperand _ hopen hclose => exact absurd hop (not_or_intro hopen hclose)
  | alreadyOpen h' | closed h' => cases h'.symm.trans h; simp
  | issued i h' => exact (exec_results_ne_refused (h'.symm.trans h) _ :)
  | opening h' => exact (awaitBusOpen_results_ne_refused (h'.symm.trans h) _ :)

/-- Settles O35: READY is looked at before the operands, and neither OPEN nor CLOSE asks for it. -/
theorem operationsNeedReady : Obligations.OperationsNeedReady :=
  ⟨fun _ _ => accept_notReady, fun _ _ _ => accept_results_ne_notReady⟩

/-! ## OPEN -/

theorem accept_open {q : Request} (hop : q.op = .openCodec) (s : State) : accept q s = opOpen s := by
  simp only [accept, hop]

/-- Settles O36: OPEN looks at READY before it opens the bus. -/
theorem openWhenReadyIsRefused : Obligations.OpenWhenReadyIsRefused := by
  intro q s hop hready
  rw [accept_open hop, opOpen, if_pos hready]
  rfl

theorem opOpen_of_not_ready {s : State} (hready : s.ready = false) :
    opOpen s = awaitBusOpen { s with op := some .openCodec, phase := .writing, busOpening := true } :=
  if_neg (by simp [hready])

theorem awaitBusOpen_nil {s : State} (h : s.answers = []) : awaitBusOpen s = .next s := by
  simp only [awaitBusOpen, h]

theorem awaitBusOpen_ok {s : State} {ack : Frame} {rest : List Answer} (h : s.answers = .ok ack :: rest) :
    awaitBusOpen s = exec .getId
      { s with answers := rest, trace := s.trace ++ [.busOpen true], phase := .idle, busOpening := false } := by
  simp only [awaitBusOpen, h]

/-- Settles O38: the answer to the `BusOpen` starts the handshake, and without one OPEN waits. -/
theorem openRunsTheHandshake : Obligations.OpenRunsTheHandshake := by
  refine ⟨fun q s ack rest hop hready hanswers => ?_, fun q s hop hready hanswers => ?_⟩ <;>
    rw [accept_open hop, opOpen_of_not_ready hready]
  · exact awaitBusOpen_ok hanswers
  · exact awaitBusOpen_nil hanswers

/-! ## CLOSE -/

theorem accept_close {q : Request} (hop : q.op = .closeCodec) (s : State) : accept q s = opClose s := by
  simp only [accept, hop]

/-- The answered AllOff of a teardown (R173): its result is `Ok(())`, and the transport's answer is recorded. -/
theorem exec_allOff_teardown {s : State} {a : Answer} {rest : List Answer} (hop : s.op = some .closeCodec)
    (hanswers : s.answers = a :: rest) :
    exec .allOff s = .next (afterReq2 .allOff 0x0E#8 0x00#8 a rest .ok
      { s with lastCloseFailed := !a.isOk, ready := false }) := by
  rw [exec_write .allOff s rfl, writeCommand_fits _ _ _ _ (extra_length_le .allOff)]
  refine congrArg _ ((awaitWrite_cons _ _ a rest ?answered).trans (endAllOff_close a.isOk _ ?closing))
  case answered => exact hanswers
  case closing => exact hop

/-- Settles O39: CLOSE issues AllOff when ready, and otherwise has nothing to tear down. -/
theorem closeAttemptsOneAllOff : Obligations.CloseAttemptsOneAllOff := by
  refine ⟨fun q s a rest hop hready hanswers => ?_, fun q s hop hready => ?_⟩ <;> rw [accept_close hop, opClose]
  · rw [if_pos hready]
    exact exec_allOff_teardown (s := { s with op := some .closeCodec }) rfl hanswers
  · rw [if_neg (by simp [hready])]
    rfl

end Sys2Proof.Machine
end

section
/-! SUPPORT. Errors and refusals on the result port (R190 to R199): their codes, and what an operation that ends with one
leaves behind. -/

namespace Sys2Proof.Machine

/-! ## The codes of the result port -/

theorem errCmd_eq_none {r : Result} (h : ∀ c : Cmd, r ≠ .err (.echoMismatch c)) : r.errCmd = none := by
  unfold Result.errCmd
  split
  · next c => exact absurd rfl (h c)
  · rfl

/-- Bit 3 of STATUS tells a refusal from every other result (R190). -/
theorem status_refusalBit_iff (r : Result) : r.status.getLsbD 3 = true ↔ ∃ q, r = .refused q := by
  cases r with
  | ok | okBool | okVolts | okFrame => simp [Result.status]
  | err k => cases k <;> simp [Result.status, ErrorKind.code]
  | refused q => cases q <;> simp [Result.status, RefuseReason.code]

/-- Settles O42: the codes by their definition, and bit 3 by the kinds of result. -/
theorem statusCodesAreThePrintedOnes : Obligations.StatusCodesAreThePrintedOnes :=
  ⟨⟨rfl, fun _ => rfl, fun _ => rfl, rfl, rfl, rfl, fun _ => rfl, rfl, rfl, rfl, rfl⟩, fun _ => rfl,
    fun _ => errCmd_eq_none, status_refusalBit_iff⟩

/-! ## Refusals -/

/-- Settles O56: a check turns the operation away before anything is done, and nothing that has begun is refused. -/
theorem refusalsChangeNothing : Obligations.RefusalsChangeNothing := by
  intro q s t r h hresults
  cases accept_cases q s with
  | notReady h' | alreadyOpen h' | badOperand h' =>
    cases h'.symm.trans h
    cases List.append_cancel_left hresults
    rfl
  | closed h' =>
    cases h'.symm.trans h
    cases List.append_cancel_left hresults
  | issued i h' => exact absurd hresults (exec_results_ne_refused (h'.symm.trans h) r :)
  | opening h' => exact absurd hresults (awaitBusOpen_results_ne_refused (h'.symm.trans h) r :)

/-! ## Errors -/

/-- What every error leaves of `s` in `t`: the codec is back in IDLE, with READY and LAST_CLOSE_FAILED kept (R198). -/
structure Failed (s t : State) : Prop where
  ready : t.ready = s.ready
  phase : t.phase = .idle
  op : t.op = none
  closeFailed : t.lastCloseFailed = s.lastCloseFailed

/-- A command that ends with an error keeps both flags, and its error is none of the bus opening's. -/
theorem Run.failed {c : Cmd} {frame : List Byte} {s t : State} {k : ErrorKind} (h : Run c frame s t)
    (hresults : t.results = s.results ++ [.err k]) : Failed s t ∧ k ≠ .transportUnavailable := by
  cases h with
  | waits _ _ results => simp [results] at hresults
  | ended r results phase op _ ready closeFailed _ notOpen =>
    cases List.append_cancel_left (results.symm.trans hresults)
    exact ⟨⟨ready, phase, op, closeFailed⟩, fun hk => notOpen (congrArg _ hk)⟩
  | handshake _ results | teardown _ _ results => cases List.append_cancel_left (results.symm.trans hresults)

/-- A step that delivers an error ends the operation, and `TransportUnavailable` is the failed `BusOpen` of OPEN. -/
theorem step_failed {s t : State} {k : ErrorKind} (h : step s = .next t)
    (hresults : t.results = s.results ++ [.err k]) :
    Failed s t ∧ (k = .transportUnavailable →
      t.trace = s.trace ++ [.busOpen false] ∧ (AcceptsOpen s ∨ OpenOutstanding s)) := by
  cases step_run s t h with
  | idle same => simp [same] at hresults
  | atOnce q rest r _ _ state why =>
    subst state
    cases List.append_cancel_left hresults
    rcases why with ⟨⟨x, hx⟩, -⟩ | ⟨hok, -⟩
    · cases hx
    · cases hok
  | opening results => simp [results] at hresults
  | openFails _ phase op ready closeFailed trace why =>
    exact ⟨⟨ready, phase, op, closeFailed⟩, fun _ => ⟨trace, why⟩⟩
  | run c frame u run ready closeFailed results =>
    obtain ⟨hfailed, hkind⟩ := run.failed (results ▸ hresults)
    exact ⟨⟨hfailed.ready.trans ready, hfailed.phase, hfailed.op, hfailed.closeFailed.trans closeFailed⟩,
      fun hk => absurd hk hkind⟩

/-- Settles O55, from what a step that delivers an error leaves (`Failed`). -/
theorem errorsKeepReady : Obligations.ErrorsKeepReady := by
  intro s t k h hresults
  obtain ⟨⟨ready, phase, op, closeFailed⟩, -⟩ := step_failed h hresults
  exact ⟨ready, phase, op, closeFailed⟩

/-! ## The failed bus opening -/

theorem awaitBusOpen_fail {s : State} {rest : List Answer} (h : s.answers = .fail :: rest) :
    awaitBusOpen s = .next (afterResult (.err .transportUnavailable)
      { s with answers := rest, trace := s.trace ++ [.busOpen false] }) := by
  simp only [awaitBusOpen, h]
  rfl

/-- Only OPEN opens the bus, so no other operation's acceptance ends with its failure. -/
theorem accept_transportUnavailable {q : Request} {s t : State} (h : accept q s = .next t)
    (hresults : t.results = s.results ++ [.err .transportUnavailable]) : q.op = .openCodec := by
  cases accept_cases q s with
  | alreadyOpen _ hop | opening _ hop => exact hop
  | notReady h' | badOperand h' | closed h' =>
    cases h'.symm.trans h
    cases List.append_cancel_left hresults
  | issued i h' => exact absurd rfl ((exec_run i _ t (h'.symm.trans h)).failed hresults).2

/-- OPEN, with its `BusOpen` outstanding, runs with READY = 0 (R14, R177). -/
theorem Inv.openOutstanding {s : State} (hinv : Inv s) (h : OpenOutstanding s) :
    s.op = some .openCodec ∧ s.ready = false := by
  obtain ⟨-, hop⟩ := hinv.opening h.2
  exact ⟨hop, Bool.eq_false_iff.mpr fun hready => (hinv.opReady _ hop).mp hready rfl⟩

/-- Settles O37: `awaitBusOpen` alone raises the error, and OPEN alone comes to it, at its acceptance or later. -/
theorem failedBusOpenIsTransportUnavailable : Obligations.FailedBusOpenIsTransportUnavailable := by
  refine ⟨fun q s rest hop hready hanswers => ?atAcceptance, fun _ _ _ => accept_transportUnavailable,
    fun s rest hphase hopening hanswers => ?later, fun s t hinv h hresults => ?onlyOpen⟩
  case atAcceptance =>
    rw [accept_open hop, opOpen_of_not_ready hready]
    exact awaitBusOpen_fail hanswers
  case later =>
    rw [step_busOpening hphase hopening]
    exact awaitBusOpen_fail hanswers
  case onlyOpen =>
    obtain ⟨hfailed, hopening⟩ := step_failed h hresults
    obtain ⟨htrace, hwhy⟩ := hopening rfl
    rcases hwhy with ⟨hphase, hslot, hready, hpresented⟩ | houtstanding
    · exact ⟨hready, hfailed.ready.trans hready, htrace, .inl ⟨hphase, hslot, hpresented⟩⟩
    · obtain ⟨hop, hready⟩ := hinv.openOutstanding houtstanding
      exact ⟨hready, hfailed.ready.trans hready, htrace, .inr ⟨hop, houtstanding.2⟩⟩

end Sys2Proof.Machine
end

section
/-! SUPPORT. Reset at any time, and where a run stops (R221, R224, R230). -/

namespace Sys2Proof.Machine

/-- Settles O44: each register by the definition of `afterReset`, which keeps the trace. -/
theorem resetSendsNothing : Obligations.ResetSendsNothing :=
  fun _ => ⟨rfl, rfl, rfl, rfl, rfl, rfl, rfl, rfl⟩

/-- A step leaves the state of a codec driven by the host where it waits for an operation, or for an answer. -/
theorem step_eq_self_iff {s : State} (hdriven : HostDriven s) :
    step s = .next s ↔ (s.phase = .idle ∧ s.requests = []) ∨ Stuck s := by
  constructor
  · intro h
    rcases exactlyOneResultPerOperation s s h with ⟨-, -, r, hresults⟩ | ⟨-, hstuck | ⟨-, hphase, -, hrequests⟩⟩
    · simp at hresults
    · exact .inr hstuck
    · exact .inl ⟨hphase, hrequests⟩
  · rintro (⟨hphase, hrequests⟩ | ⟨hphase, hanswers⟩)
    · exact step_nothingPresented hphase hdriven.1 hrequests
    · exact step_noAnswer hphase hanswers

/-- A run that waits for an operation has ended well or has its teardown duty unmet, as READY says (R230). -/
theorem HostRun.waits_iff {qs : List Request} {s : State} (h : HostRun qs s) :
    (s.phase = .idle ∧ s.requests = []) ↔
      EndedWell qs s ∨ (TeardownDutyUnmet qs s ∧ s.phase = .idle ∧ s.requests = []) := by
  constructor
  · rintro ⟨hphase, hrequests⟩
    cases hready : s.ready with
    | false => exact .inl ⟨h, hphase, hrequests, hready⟩
    | true => exact .inr ⟨⟨h, hready⟩, hphase, hrequests⟩
  · rintro (⟨-, hphase, hrequests, -⟩ | ⟨-, hwaits⟩)
    · exact ⟨hphase, hrequests⟩
    · exact hwaits

/-- Settles O60: a step leaves the state exactly where the codec waits, and READY tells the two waits in IDLE apart. -/
theorem aRunStopsInOneOfThreeWays : Obligations.ARunStopsInOneOfThreeWays := by
  intro qs s hrun
  obtain ⟨-, hdriven⟩ := reachableStatesAreLawful s hrun.reachable
  refine ⟨?stops, ?well⟩
  case stops => exact (step_eq_self_iff hdriven).trans ((or_congr_left hrun.waits_iff).trans or_assoc)
  case well =>
    rintro ⟨-, hphase, -, hready⟩
    exact ⟨fun ⟨_, hunmet⟩ => Bool.false_ne_true (hready.symm.trans hunmet), fun ⟨hbusy, _⟩ => hbusy hphase⟩

end Sys2Proof.Machine
end

section
/-! SUPPORT. What one operation of a run comes to (`Worked`): it waits, or it ends with one result and the READY that its
name and its result say (`readyAfter`; R12, R13). -/

namespace Sys2Proof.Machine

/-- READY after the operation `o` has ended with `r`: CLOSE clears it (R173, R175), an OPEN that succeeds sets it (R170),
and everything else keeps it. -/
def readyAfter (o : OpName) (r : Result) (ready : Bool) : Bool :=
  if o = .closeCodec then false else if o = .openCodec ∧ r = .ok then true else ready

theorem readyAfter_close (r : Result) (ready : Bool) : readyAfter .closeCodec r ready = false := rfl

theorem readyAfter_open_ok (ready : Bool) : readyAfter .openCodec .ok ready = true := rfl

theorem readyAfter_keeps {o : OpName} {r : Result} (hclose : o ≠ .closeCodec) (hopen : o = .openCodec → r ≠ .ok)
    (ready : Bool) : readyAfter o r ready = ready := by
  rw [readyAfter, if_neg hclose, if_neg (not_and.mpr hopen)]

theorem readyAfter_refused {o : OpName} (hclose : o ≠ .closeCodec) (x : RefuseReason) (ready : Bool) :
    readyAfter o (.refused x) ready = ready :=
  readyAfter_keeps (r := .refused x) hclose (fun _ => nofun) ready

/-- What going from `s` to `t` has made of the operation `o`. -/
inductive Worked (o : OpName) (s t : State) : Prop where
  | waits (phase : t.phase ≠ .idle) (op : t.op = some o) (results : t.results = s.results) (ready : t.ready = s.ready)
  | ended (r : Result) (phase : t.phase = .idle) (results : t.results = s.results ++ [r])
      (ready : t.ready = readyAfter o r s.ready)

/-- Only the results and READY where the way begins matter. -/
theorem Worked.of_eq {o : OpName} {s u t : State} (h : Worked o u t) (hresults : u.results = s.results)
    (hready : u.ready = s.ready) : Worked o s t := by
  cases h with
  | waits phase op results ready => exact .waits phase op (results.trans hresults) (ready.trans hready)
  | ended r phase results ready => exact .ended r phase (hresults ▸ results) (hready ▸ ready)

/-- GetId is OPEN's alone (R64, R147). -/
theorem OpName.eq_open_of_issues_getId {o : OpName} (h : o.issues .getId = true) : o = .openCodec := by
  cases o with
  | openCodec => rfl
  | closeCodec | setLed | setMotors | setMotorA | setMotorB | getDriveFaultA | getDriveFaultB | getBatteryVoltage
  | stop => cases h

/-- A command in progress works on the operation that issued it. -/
theorem Run.worked {o : OpName} {c : Cmd} {frame : List Byte} {s t : State} (h : Run c frame s t)
    (hop : s.op = some o) (hissues : o.issues c = true) (hwrite : c = .allOff → s.phase ≠ .reading) : Worked o s t := by
  cases h with
  | waits phase _ results op ready => exact .waits phase (op.trans hop) results ready
  | ended r results phase _ _ ready _ _ _ notHandshake notTeardown =>
    refine .ended r phase results (ready.trans (readyAfter_keeps ?notClose ?notOpened _).symm)
    case notClose =>
      rintro rfl
      have hcmd : c = .allOff := eq_of_beq hissues
      exact notTeardown (hwrite hcmd) hcmd hop
    case notOpened =>
      rintro rfl
      exact notHandshake (eq_of_beq hissues)
  | handshake cmd results phase _ _ ready =>
    subst cmd
    cases OpName.eq_open_of_issues_getId hissues
    exact .ended .ok phase results ready
  | teardown _ closing results phase _ _ ready =>
    cases hop.symm.trans closing
    exact .ended .ok phase results ready

/-- A command that an operation has just issued works on it. -/
theorem exec_worked {i : Instr} {o : OpName} {s t : State} (h : exec i s = .next t) (hop : s.op = some o)
    (hissues : o.issues i.cmd = true) (hphase : s.phase = .idle) : Worked o s t :=
  (exec_run i s t h).worked hop hissues fun _ => by simp [hphase]

/-- OPEN's bus opening works on OPEN. -/
theorem awaitBusOpen_worked {s t : State} (h : awaitBusOpen s = .next t) (hop : s.op = some .openCodec)
    (hphase : s.phase ≠ .idle) : Worked .openCodec s t := by
  match ha : s.answers with
  | [] => cases (awaitBusOpen_nil ha).symm.trans h; exact .waits hphase hop rfl rfl
  | .fail :: rest => cases (awaitBusOpen_fail ha).symm.trans h; exact .ended _ rfl rfl rfl
  | .ok ack :: rest => exact (exec_worked ((awaitBusOpen_ok ha).symm.trans h) hop rfl rfl).of_eq rfl rfl

/-- An operation accepted in IDLE is worked on. -/
theorem accept_worked {q : Request} {s t : State} (h : accept q s = .next t) (hphase : s.phase = .idle) :
    Worked q.op s t := by
  cases accept_cases q s with
  | notReady h' _ hclose | badOperand h' _ hclose =>
    cases h'.symm.trans h
    exact .ended _ rfl rfl (readyAfter_refused hclose _ _).symm
  | alreadyOpen h' hop =>
    cases h'.symm.trans h
    exact .ended _ rfl rfl (readyAfter_refused (o := q.op) (by simp [hop]) _ _).symm
  | closed h' hop hready =>
    cases h'.symm.trans h
    exact .ended _ rfl rfl (by rw [hop, readyAfter_close]; exact hready)
  | issued i h' _ hissues => exact (exec_worked (h'.symm.trans h) rfl hissues hphase).of_eq rfl rfl
  | opening h' hop => rw [hop]; exact (awaitBusOpen_worked (h'.symm.trans h) rfl nofun).of_eq rfl rfl

/-- The operation in progress is worked on. -/
theorem step_worked_of_busy {o : OpName} {s t : State} (hinv : Inv s) (h : step s = .next t) (hphase : s.phase ≠ .idle)
    (hop : s.op = some o) : Worked o s t := by
  have c := step_cases s
  generalize step s = x at c h
  cases c with
  | foreignFrame _ _ hp | runsSlot _ _ _ hp | waits hp | accepts _ _ hp => exact absurd hp hphase
  | busOpening _ hopening =>
    obtain ⟨-, hopen⟩ := hinv.opening hopening
    cases hop.symm.trans hopen
    exact awaitBusOpen_worked h hop hphase
  | writes hp hopening hquery =>
    cases h
    exact (awaitWrite_run s hphase hquery).worked hop (hinv.opIssues o hop hopening) fun _ => by simp [hp]
  | cycleWrites hp hopening hquery =>
    cases h
    exact (awaitCycleWrite_run _ s hphase hquery).worked hop (hinv.opIssues o hop hopening) fun _ => by simp [hp]
  | reads hp =>
    cases h
    have hopening := hinv.busOpening_false (by simp [hp])
    refine (awaitRead_run _ s hp).worked hop (hinv.opIssues o hop hopening) fun hcmd => ?_
    have hquery := hinv.readingQuery hp
    rw [hcmd] at hquery
    cases hquery

/-! ## The operations not yet ended -/

/-- The operations presented that have no result yet, oldest first: the one in progress, then those held (R14). -/
def Pending (s : State) (ps : List Request) : Prop :=
  (s.phase = .idle ∧ ps = s.requests) ∨ (s.phase ≠ .idle ∧ ∃ q, s.op = some q.op ∧ ps = q :: s.requests)

/-- An input presents its operations behind those that are pending. -/
theorem Pending.take {s : State} {ps : List Request} (h : Pending s ps) (i : RunInput) :
    Pending (s.take i) (ps ++ i.operations) := by
  cases i with
  | answer => rwa [RunInput.operations, List.append_nil]
  | present p =>
    rcases h with ⟨hphase, rfl⟩ | ⟨hphase, q, hop, rfl⟩
    · exact .inl ⟨hphase, rfl⟩
    · exact .inr ⟨hphase, q, hop, rfl⟩

/-- With nothing pending the step has nothing to do. -/
theorem step_of_pending_nil {s t : State} (hdriven : HostDriven s) (hpending : Pending s []) (h : step s = .next t) :
    t = s := by
  rcases hpending with ⟨hphase, hrequests⟩ | ⟨-, q, -, hps⟩
  · cases (step_nothingPresented hphase hdriven.1 hrequests.symm).symm.trans h; rfl
  · cases hps

/-- A step works on the oldest of the pending operations, and leaves the others held. -/
theorem step_works_on_pending {q : Request} {ps : List Request} {s t : State} (hinv : Inv s) (hdriven : HostDriven s)
    (hpending : Pending s (q :: ps)) (h : step s = .next t) : t.requests = ps ∧ Worked q.op s t := by
  rcases hpending with ⟨hphase, hrequests⟩ | ⟨hphase, p, hop, hps⟩
  · have haccept := (step_accepts hphase hdriven.1 hrequests.symm).symm.trans h
    exact ⟨(accept_sameInputs haccept).1, (accept_worked haccept hphase).of_eq rfl rfl⟩
  · cases hps
    exact ⟨(step_sameInputs hphase h).1, step_worked_of_busy hinv h hphase hop⟩

end Sys2Proof.Machine
end

section
/-! SUPPORT. The account of a run (R230, R231): each operation that has ended has its one result, and READY tells whether
every OPEN among them that succeeded was followed by a CLOSE. -/

namespace Sys2Proof.Machine

/-- An entry of a list with one element more is an entry of the list, or is that element. -/
theorem getElem?_concat_eq_some_iff {α : Type} {l : List α} {a b : α} {n : Nat} :
    (l ++ [a])[n]? = some b ↔ l[n]? = some b ∨ (n = l.length ∧ a = b) := by
  rcases lt_trichotomy n l.length with hlt | rfl | hgt
  · simp [List.getElem?_append_left hlt, hlt.ne]
  · simp
  · simp [List.getElem?_eq_none, hgt.le, hgt.ne', Nat.succ_le_of_lt hgt]

/-- Among the operations `done`, which have ended with the results of `s`, every OPEN that succeeded has a later CLOSE. -/
def DutiesMet (done : List Request) (s : State) : Prop :=
  ∀ n : Nat, SuccessfulOpenAt done s n → ClosedAfter done n

section
variable {done : List Request} {q : Request} {r : Result} {s t : State} {n : Nat}

/-- Whether the duties are met is told by the results alone. -/
theorem dutiesMet_congr (h : t.results = s.results) : DutiesMet done t ↔ DutiesMet done s := by
  simp only [DutiesMet, SuccessfulOpenAt, h]

theorem SuccessfulOpenAt.lt_length (h : SuccessfulOpenAt done s n) : n < done.length := by
  obtain ⟨⟨q, hq, -⟩, -⟩ := h
  exact (List.getElem?_eq_some_iff.mp hq).1

theorem ClosedAfter.lt_length (h : ClosedAfter done n) : n + 1 < done.length := by
  obtain ⟨m, q, hm, hq, -⟩ := h
  have := (List.getElem?_eq_some_iff.mp hq).1
  omega

/-- One more operation, ended with `r`, is a successful OPEN or adds none. -/
theorem successfulOpenAt_concat (hlength : s.results.length = done.length) (hresults : t.results = s.results ++ [r]) :
    SuccessfulOpenAt (done ++ [q]) t n ↔
      SuccessfulOpenAt done s n ∨ (n = done.length ∧ q.op = .openCodec ∧ r = .ok) := by
  simp only [SuccessfulOpenAt, hresults, getElem?_concat_eq_some_iff, hlength]
  constructor
  · rintro ⟨⟨p, hp | ⟨hn, rfl⟩, hopen⟩, hr⟩
    · have := (List.getElem?_eq_some_iff.mp hp).1
      exact .inl ⟨⟨p, hp, hopen⟩, hr.resolve_right fun ⟨hn, _⟩ => by omega⟩
    · refine .inr ⟨hn, hopen, (hr.resolve_left fun hr => ?_).2⟩
      have := (List.getElem?_eq_some_iff.mp hr).1
      omega
  · rintro (⟨⟨p, hp, hopen⟩, hr⟩ | ⟨hn, hopen, hr⟩)
    · exact ⟨⟨p, .inl hp, hopen⟩, .inl hr⟩
    · exact ⟨⟨q, .inr ⟨hn, rfl⟩, hopen⟩, .inr ⟨hn, hr⟩⟩

/-- One more operation is a CLOSE after each of the others, or closes nothing. -/
theorem closedAfter_concat :
    ClosedAfter (done ++ [q]) n ↔ ClosedAfter done n ∨ (n < done.length ∧ q.op = .closeCodec) := by
  simp only [ClosedAfter, getElem?_concat_eq_some_iff]
  constructor
  · rintro ⟨m, p, hm, hp | ⟨rfl, rfl⟩, hclose⟩
    · exact .inl ⟨m, p, hm, hp, hclose⟩
    · exact .inr ⟨hm, hclose⟩
  · rintro (⟨m, p, hm, hp, hclose⟩ | ⟨hn, hclose⟩)
    · exact ⟨m, p, hm, .inl hp, hclose⟩
    · exact ⟨done.length, q, hn, .inr ⟨rfl, rfl⟩, hclose⟩

/-- The duties through one more operation that has ended: they are met after a CLOSE, not met after an OPEN that
succeeded, and as before after anything else. -/
theorem dutiesMet_concat (hlength : s.results.length = done.length) (hresults : t.results = s.results ++ [r])
    (hready : t.ready = readyAfter q.op r s.ready) (h : s.ready = false ↔ DutiesMet done s) :
    t.ready = false ↔ DutiesMet (done ++ [q]) t := by
  rw [hready]
  simp only [DutiesMet, successfulOpenAt_concat hlength hresults, closedAfter_concat]
  by_cases hclose : q.op = .closeCodec
  · rw [hclose, readyAfter_close]
    refine iff_of_true rfl ?_
    rintro n (hopen | ⟨-, hopen, -⟩)
    · exact .inr ⟨hopen.lt_length, rfl⟩
    · cases hopen
  by_cases hopen : q.op = .openCodec ∧ r = .ok
  · obtain ⟨hop, rfl⟩ := hopen
    rw [hop, readyAfter_open_ok]
    refine iff_of_false nofun fun hmet => ?_
    rcases hmet done.length (.inr ⟨rfl, rfl, rfl⟩) with hclosed | ⟨hlt, -⟩
    · have := hclosed.lt_length
      omega
    · exact absurd hlt (lt_irrefl _)
  · rw [readyAfter_keeps hclose (not_and.mp hopen), h]
    simp only [DutiesMet, hclose, hopen, and_false, or_false]

end

/-- The account of a run of the operations `qs` that has come to `s`: those that have ended, with one result each, then
those that are pending. -/
def Accounted (qs : List Request) (s : State) : Prop :=
  ∃ done pending, qs = done ++ pending ∧ Pending s pending ∧ s.results.length = done.length ∧
    (s.ready = false ↔ DutiesMet done s)

/-- Nothing has been presented at reset. -/
theorem accounted_reset : Accounted [] State.reset :=
  ⟨[], [], rfl, .inl ⟨rfl, rfl⟩, rfl, iff_of_true rfl fun _ hopen => absurd hopen.lt_length (Nat.not_lt_zero _)⟩

theorem Accounted.take {qs : List Request} {s : State} (h : Accounted qs s) (i : RunInput) :
    Accounted (qs ++ i.operations) (s.take i) := by
  obtain ⟨done, pending, rfl, hpending, hlength, hmet⟩ := h
  refine ⟨done, pending ++ i.operations, List.append_assoc .., hpending.take i, ?_⟩
  cases i <;> exact ⟨hlength, hmet⟩

theorem Accounted.step {qs : List Request} {s t : State} (h : Accounted qs s) (hinv : Inv s) (hdriven : HostDriven s)
    (hstep : step s = .next t) : Accounted qs t := by
  obtain ⟨done, pending, rfl, hpending, hlength, hmet⟩ := h
  cases pending with
  | nil =>
    cases step_of_pending_nil hdriven hpending hstep
    exact ⟨done, [], rfl, hpending, hlength, hmet⟩
  | cons q rest =>
    obtain ⟨hrequests, hworked⟩ := step_works_on_pending hinv hdriven hpending hstep
    cases hworked with
    | waits phase op results ready =>
      refine ⟨done, q :: rest, rfl, .inr ⟨phase, q, op, by rw [hrequests]⟩, by rw [results, hlength], ?_⟩
      rw [ready, dutiesMet_congr results, hmet]
    | ended r phase results ready =>
      exact ⟨done ++ [q], rest, by simp, .inl ⟨phase, hrequests.symm⟩, by simp [results, hlength],
        dutiesMet_concat hlength results ready hmet⟩

/-- Every run keeps its account. -/
theorem HostRun.accounted {qs : List Request} {s : State} (h : HostRun qs s) : Accounted qs s := by
  induction h with
  | start => exact accounted_reset
  | take i _ ih => exact ih.take i
  | step hrun hstep ih =>
    obtain ⟨hinv, hdriven⟩ := reachableStatesAreLawful _ hrun.reachable
    exact ih.step hinv hdriven hstep

/-- With nothing in progress and nothing held, every operation of the run has ended. -/
theorem Accounted.all_ended {qs : List Request} {s : State} (h : Accounted qs s) (hphase : s.phase = .idle)
    (hrequests : s.requests = []) : s.results.length = qs.length ∧ (s.ready = false ↔ DutiesMet qs s) := by
  obtain ⟨done, pending, rfl, ⟨-, rfl⟩ | ⟨hbusy, -⟩, haccount⟩ := h
  · rwa [hrequests, List.append_nil]
  · exact absurd hphase hbusy

/-- Settles O59, from the account of the run (`Accounted`), with nothing pending. -/
theorem aRunEndsWellWhenEveryOpenIsClosed : Obligations.ARunEndsWellWhenEveryOpenIsClosed := by
  intro qs s hrun hphase hrequests
  obtain ⟨hlength, hready⟩ := hrun.accounted.all_ended hphase hrequests
  have hended : EndedWell qs s ↔ s.ready = false :=
    ⟨fun ⟨_, _, _, h⟩ => h, fun h => ⟨hrun, hphase, hrequests, h⟩⟩
  exact ⟨hlength, hended.trans hready⟩

end Sys2Proof.Machine
end
